-- ==== Sys2Proof/Word.lean ====
section
/-! DEFINITION. The word types of the engine (rules R8, R13, R17, R53). -/

namespace Sys2Proof

/-- A byte of a byte space, and the width of `LFSR` (rules R8, R17). -/
abbrev Byte := BitVec 8

/-- A lane of the state matrix, bit 0 least significant (rules R8, R13). -/
abbrev Lane := BitVec 64

/-- A command word: a number of 16 bits, not a byte string (rule R53). -/
abbrev CmdWord := BitVec 16

/-- The 5-bit round index field `r` of a format R word, and the width of `RND` (rules R19, R54). -/
abbrev RoundIndex := BitVec 5

end Sys2Proof
end

