-- ==== Sys2Proof/Config.lean ====
section
/-! DEFINITION. The fixed parameters of rule R6, the two open parameters of rule R7, and the parameter that chooses
between two of the spec's rules. -/

namespace Sys2Proof

/-- `RATE`: bytes absorbed for each permutation call (rule R6). -/
def rateBytes : Nat := 136

/-- `WPB`: 64-bit words in one block (rule R6). -/
def wordsPerBlock : Nat := 17

/-- `NROUNDS`: rounds of Keccak-f (rules R6, R88). -/
def numRounds : Nat := 24

/-- `DIGLEN`: bytes of the digest (rule R6). -/
def digestBytes : Nat := 32

/-- `SQLANES`: lanes squeezed (rule R6). -/
def squeezedLanes : Nat := 4

/-- `SUFFIX`: the byte placed right after the message (rule R6). -/
def suffixByte : Byte := 0x06

/-- `FINAL`: the last byte of the padded block (rule R6). -/
def finalByte : Byte := 0x80

/-- `PAD_JOIN`: the byte where suffix and final byte fall together (rules R7, R97; decision D6, log 15). -/
def joinByte : Byte := 0x86

/-- `LFSR_SEED` (rule R6). -/
def lfsrSeed : Byte := 0x01

/-- `LFSR_POLY`, XORed in when the bit shifted out was 1 (rule R6). -/
def lfsrPoly : Byte := 0x71

/-- `RCBITS`: LFSR output bits consumed for each round (rule R6). -/
def rcBits : Nat := 7

/-- The parameters rule R7 leaves OPEN, and the one in which R94 and R113 differ. DESIGN CHOICE (log 3): they stand in
`State`, where no step changes them, so that every statement about every state holds for every value of them. -/
structure Config where
  /-- `PBUF_CAP`: capacity of the padded buffer in bytes, `none` for unbounded. -/
  pbufCap : Option Nat
  /-- `LENW`: width of `LEN` in bits, `none` for an unbounded integer. -/
  lenw : Option Nat
  /-- Whether a padded length that does not fit `LENW - 1` bits counts as exceeding `PBUF_CAP`: `true` as R94 says; `false`
  for the test of R113 and D11 alone, `plen(LEN) > PBUF_CAP`, by which the error never occurs with `PBUF_CAP` unbounded.
  DESIGN CHOICE (log 19): the spec does not settle which, so the model has both. -/
  lenLimit : Bool
  deriving DecidableEq, Repr

/-- The parameters after reset: `PBUF_CAP` unbounded, the spec's default (D11), and `LENW` unbounded, which R7 lets the
model use in place of the default 64. DESIGN CHOICE (log 3): so R94 and R113 both hold after reset, whatever `lenLimit`. -/
def Config.default : Config := ⟨none, none, true⟩

/-- A bounded `LENW` is a positive number of bits (the table of open parameters of `92_eei_decisions.md`). -/
abbrev Config.wf (c : Config) : Prop := c.lenw ≠ some 0

end Sys2Proof
end

