-- ==== Sys2Proof/Syntax.lean ====
section
/-! DEFINITION. The command set: one constructor for each row of the opcode table (rules R52, R55). -/

namespace Sys2Proof

/-- The 16 commands of rule R52. The one operand is the round index `r` of format R, with the width of its
field; which values are commands at all is `Instr.wellFormed` (rule R54). -/
inductive Instr where
  /-- `RCSEED`, rule R68. -/
  | rcseed
  /-- `RCNEXT`, rule R69. -/
  | rcnext
  /-- `RCLD r`, rule R70. -/
  | rcld (r : RoundIndex)
  /-- `THETA`, rule R76. -/
  | theta
  /-- `RHO`, rule R79. -/
  | rho
  /-- `PI`, rule R80. -/
  | pi
  /-- `CHI`, rule R81. -/
  | chi
  /-- `IOTA`, rule R82. -/
  | iota
  /-- `ROUND r`, rule R83. -/
  | round (r : RoundIndex)
  /-- `KECCAKF`, rule R87. -/
  | keccakf
  /-- `INIT`, rule R93. -/
  | init
  /-- `PAD`, rule R98. -/
  | pad
  /-- `XORBLK`, rule R100. -/
  | xorblk
  /-- `ABSORB`, rule R101. -/
  | absorb
  /-- `SQUEEZE`, rule R102. -/
  | squeeze
  /-- `DIGEST`, rule R103. -/
  | digest
  deriving DecidableEq, Repr

end Sys2Proof
end

