-- ==== Sys2Proof/WellFormed.lean ====
section
/-! DEFINITION. Which terms of `Instr` are commands: the legal values of the operand `r` (rule R54). -/

namespace Sys2Proof

/-- The legal round indices are 0 to 23; 24 to 31 are illegal (rules R54, R57). -/
def roundIndexLegal (r : RoundIndex) : Bool := decide (r.toNat < numRounds)

/-- A command is well formed when its operand, if it has one, is legal. -/
def Instr.wellFormed (i : Instr) : Bool :=
  match i with
  | .rcseed => true
  | .rcnext => true
  | .rcld r => roundIndexLegal r
  | .theta => true
  | .rho => true
  | .pi => true
  | .chi => true
  | .iota => true
  | .round r => roundIndexLegal r
  | .keccakf => true
  | .init => true
  | .pad => true
  | .xorblk => true
  | .absorb => true
  | .squeeze => true
  | .digest => true

end Sys2Proof
end

