-- ==== Sys2Proof/Decode.lean ====
section
/-! DEFINITION. The command word: decoding every 16-bit word, and the encoder (rules R53 to R58). -/

namespace Sys2Proof

/-- Why a word is illegal (rules R56, R57). -/
inductive IllegalWord where
  /-- The opcode is none of the 16 of rule R55. -/
  | unassignedOpcode
  /-- A must-be-zero field holds a one: bits 7:0 in format Z, bits 7:5 in format R. -/
  | mustBeZero
  /-- Format R with `r` in 24..31. -/
  | roundIndex
  deriving DecidableEq, Repr

/-- What a word is: exactly one command, or illegal (rule R56). -/
inductive Decoded where
  | command (i : Instr)
  | illegal (why : IllegalWord)
  deriving DecidableEq, Repr

/-- The field `opcode`, bits 15:8 (rule R53). -/
def opcodeField (w : CmdWord) : BitVec 8 := w.extractLsb' 8 8

/-- Bits 7:0, which must be zero in format Z (rule R53). -/
def lowByteField (w : CmdWord) : BitVec 8 := w.extractLsb' 0 8

/-- Bits 7:5, which must be zero in format R (rule R53). -/
def reservedField (w : CmdWord) : BitVec 3 := w.extractLsb' 5 3

/-- The field `r`, bits 4:0 (rules R53, R54). -/
def roundField (w : CmdWord) : RoundIndex := w.extractLsb' 0 5

/-- Format Z: no operand, the low byte zero (rule R53). -/
def decodeZ (w : CmdWord) (i : Instr) : Decoded :=
  if lowByteField w = 0 then .command i else .illegal .mustBeZero

/-- Format R: the round index operand (rules R53, R54). -/
def decodeR (w : CmdWord) (mk : RoundIndex → Instr) : Decoded :=
  if reservedField w ≠ 0 then .illegal .mustBeZero
  else if roundIndexLegal (roundField w) then .command (mk (roundField w))
  else .illegal .roundIndex

/-- What an opcode of rule R55 stands for: a command of format Z, or one of the two of format R. -/
inductive OpcodeRow where
  | z (i : Instr)
  | rcld
  | round
  deriving DecidableEq, Repr

/-- The opcode map (rule R55); opcode `0x11` is deliberately unassigned. -/
def opcodeRow (op : BitVec 8) : Option OpcodeRow :=
  if op = 0x10 then some (.z .rcseed)
  else if op = 0x12 then some (.z .rcnext)
  else if op = 0x13 then some .rcld
  else if op = 0x20 then some (.z .theta)
  else if op = 0x21 then some (.z .rho)
  else if op = 0x22 then some (.z .pi)
  else if op = 0x23 then some (.z .chi)
  else if op = 0x24 then some (.z .iota)
  else if op = 0x25 then some .round
  else if op = 0x30 then some (.z .keccakf)
  else if op = 0x40 then some (.z .init)
  else if op = 0x41 then some (.z .pad)
  else if op = 0x42 then some (.z .xorblk)
  else if op = 0x43 then some (.z .absorb)
  else if op = 0x44 then some (.z .squeeze)
  else if op = 0x4F then some (.z .digest)
  else none

/-- The decoder (rule R56). -/
def decode (w : CmdWord) : Decoded :=
  match opcodeRow (opcodeField w) with
  | none => .illegal .unassignedOpcode
  | some (.z i) => decodeZ w i
  | some .rcld => decodeR w .rcld
  | some .round => decodeR w .round

/-- A format Z word: the opcode above eight zero bits (rule R53). -/
def wordZ (opcode : BitVec 8) : CmdWord := opcode ++ (0 : BitVec 8)

/-- A format R word: the opcode, three zero bits, `r` (rule R53). -/
def wordR (opcode : BitVec 8) (r : RoundIndex) : CmdWord := opcode ++ ((0 : BitVec 3) ++ r)

/-- The command word of a command (rule R55). -/
def encode (i : Instr) : CmdWord :=
  match i with
  | .rcseed => wordZ 0x10
  | .rcnext => wordZ 0x12
  | .rcld r => wordR 0x13 r
  | .theta => wordZ 0x20
  | .rho => wordZ 0x21
  | .pi => wordZ 0x22
  | .chi => wordZ 0x23
  | .iota => wordZ 0x24
  | .round r => wordR 0x25 r
  | .keccakf => wordZ 0x30
  | .init => wordZ 0x40
  | .pad => wordZ 0x41
  | .xorblk => wordZ 0x42
  | .absorb => wordZ 0x43
  | .squeeze => wordZ 0x44
  | .digest => wordZ 0x4F

/-- The command a decoded word stands for, if any. -/
def Decoded.instr? (d : Decoded) : Option Instr :=
  match d with
  | .command i => some i
  | .illegal _ => none

/-- The command read from a word numbered as the opcode table numbers it. A command word is a number, so no byte
order comes in (rule R53); bits above `nbits` are zero. -/
def decodeTableWord (nbits w : Nat) : Option Instr := (decode (BitVec.ofNat 16 (w % 2 ^ nbits))).instr?

end Sys2Proof
end

