-- ==== Sys2Proof/Machine/Lanes.lean ====
section
/-! DEFINITION. The state matrix: five columns of five lanes (rules R13, R14). -/

namespace Sys2Proof.Machine

/-- Five values, one for each index 0..4. -/
structure Five (α : Type) where
  v0 : α
  v1 : α
  v2 : α
  v3 : α
  v4 : α
  deriving DecidableEq, Repr

/-- The 25 lanes: `A[x]` is column `x`, and a column lists its lanes by `y` (rule R13). -/
abbrev Lanes := Five (Five Lane)

/-- The value at an index. -/
def fiveGet {α : Type} (v : Five α) (i : Fin 5) : α :=
  match i.val with
  | 0 => v.v0
  | 1 => v.v1
  | 2 => v.v2
  | 3 => v.v3
  | _ => v.v4

/-- Five values given by a function of the index. -/
def fiveBuild {α : Type} (f : Fin 5 → α) : Five α := ⟨f 0, f 1, f 2, f 3, f 4⟩

/-- The lane `A[x][y]` (rules R9, R13). -/
def Lanes.lane (A : Lanes) (x y : Fin 5) : Lane := fiveGet (fiveGet A x) y

/-- The matrix whose lane at `(x, y)` is `f x y`: all writes of a step happen together, from the old state
(rule R10). -/
def Lanes.build (f : Fin 5 → Fin 5 → Lane) : Lanes := fiveBuild fun x => fiveBuild fun y => f x y

/-- The linear index `k = x + 5*y` (rule R14). -/
def linearIndex (x y : Fin 5) : Nat := x.val + 5 * y.val

/-- The lane `L[k]`, the same lane as `A[k mod 5][k div 5]` (rules R9, R14). -/
def Lanes.linear (A : Lanes) (k : Fin 25) : Lane :=
  A.lane ⟨k.val % 5, Nat.mod_lt _ (by decide)⟩ ⟨k.val / 5, by omega⟩

/-- Every lane zero. -/
def Lanes.zero : Lanes := Lanes.build fun _ _ => 0

end Sys2Proof.Machine
end

