-- ==== Sys2Proof/Machine/State.lean ====
section
/-! DEFINITION. The state of the engine, the host's actions, the reasons a step can stop, and reset. -/

namespace Sys2Proof.Machine

/-- A byte space: the bytes something has written, as pairs of offset and byte with offsets strictly rising
(rules R33 to R36). What an offset not listed reads as is `memoryUnlisted` in `Machine/Ops.lean`. -/
abbrev Memory := List Host.Cell

/-- The codes of the register `ERR` (rule R110). The values 5 to 7 of the 3-bit field never occur, so they have no
constructor (DEDUCED, log 17); `errCode` gives the numbers. -/
inductive ErrCode where
  | none
  | alloc
  | length
  | cmd
  | seq
  deriving DecidableEq, Repr

/-- What the host can do between two commands (rules R62, R131, R129). -/
inductive HostAction where
  /-- Present one command word and wait for it to complete (rule R62). -/
  | command (w : CmdWord)
  /-- Write the register `LEN`, the only register the host writes (rules R21, R131). -/
  | writeLen (v : Int)
  /-- Write bytes of `MSG` from an offset on (rules R34, R131). -/
  | writeMsg (offset : Nat) (bytes : List Byte)
  /-- Read the control register with this number (rule R28). -/
  | readReg (number : Nat)
  /-- Read one byte of `DIG` (rule R36). -/
  | readDig (offset : Nat)
  /-- Reset the engine (rule R129). -/
  | reset
  deriving DecidableEq, Repr

/-- The content of a control register as the host reads it (rule R28), by its width: 8 bits, 64 bits, the two's
complement `LEN`, an unsigned count of `LENW` bits. -/
inductive RegValue where
  | bits8 (v : BitVec 8)
  | bits64 (v : BitVec 64)
  | signed (v : Int)
  | count (n : Nat)
  deriving DecidableEq, Repr

/-- What a read of the host was told. -/
inductive HostAnswer where
  | reg (number : Nat) (v : RegValue)
  | digByte (offset : Nat) (b : Byte)
  deriving DecidableEq, Repr

/-- The state of the engine (rule R30 lists it by command), of the host's buffer, and of what the host does. -/
structure State where
  /-- `LENW` and `PBUF_CAP` (rule R7), and whether R94 or R113 is taken where they differ (log 19); no step changes them. -/
  cfg : Config
  /-- The 25 lanes `A[x][y]` (rule R13). -/
  lanes : Lanes
  /-- `LFSR` (rule R17). -/
  lfsr : BitVec 8
  /-- `RC` (rule R18). -/
  rc : BitVec 64
  /-- `RND` (rule R19). -/
  rnd : BitVec 5
  /-- `LEN`, two's complement (rule R21). -/
  len : Int
  /-- `PLEN` (rule R22). `NBLK` is computed from it: `State.nblk`. -/
  plen : Nat
  /-- `BLK` (rule R23). -/
  blk : Nat
  /-- The flag `PVALID` (rule R24). -/
  pvalid : Bool
  /-- The flag `DVALID` (rule R24). -/
  dvalid : Bool
  /-- The flag `ERRF` (rule R24). -/
  errf : Bool
  /-- `ERR` (rule R25). -/
  err : ErrCode
  /-- `MSG`, the caller's buffer, read only to the engine (rule R34). -/
  msg : Memory
  /-- `PBUF`, the padded buffer (rule R35). -/
  pbuf : Memory
  /-- `DIG`, the digest buffer (rule R36). -/
  dig : Memory
  /-- The model's own: the actions the host has still to take, the next one first (log 1). It is no queue of the
  engine, which has none (rule R62). -/
  host : List HostAction
  /-- The model's own: what the host's last read was told (log 10). -/
  answer : Option HostAnswer
  deriving DecidableEq, Repr

/-- `NBLK = PLEN / 136`, a derived quantity (rule R22). -/
def State.nblk (s : State) : Nat := s.plen / rateBytes

/-- Why the machine stops with a fault. -/
inductive Fault where
  /-- `XORBLK`, `ABSORB` and `DIGEST`: a byte of the block below `PLEN` that nothing has written to `PBUF`. `PAD` writes
  all of them (rule R35), so no run reaches it. SAFE (log 7). -/
  | pbufByteAbsent
  deriving DecidableEq, Repr

/-- Why a step has no meaning. -/
inductive Refusal where
  /-- An arm of `exec` with no meaning yet; raised by none. SAFE. -/
  | notModelled (mnemonic : String)
  /-- `PAD` and `DIGEST`: a byte of `MSG` below `LEN` that the host never placed; outside the model by rule R45 and U17.
  SAFE (log 5). -/
  | msgUnreadable
  /-- The host reads `DIG` while `DVALID = 0` (rule R36). SAFE (log 11). -/
  | digNotValid
  /-- The host reads `DIG` at an offset above 31, or at one that holds no byte (rule R36). SAFE (log 11). -/
  | digOffset
  /-- The host reads a control register with a number above 8 (U22). SAFE (log 10). -/
  | noSuchRegister
  deriving DecidableEq, Repr

/-- The three outcomes of a step of this machine. -/
abbrev Result := Host.Outcome State Fault Refusal

/-- The state after reset (rules R31, R129), with the open parameters unbounded (log 3), `PBUF` and `DIG`
holding no value (log 6), no byte of `MSG` placed (log 5) and a host that does nothing (log 1, log 10). -/
def State.reset : State where
  cfg := Config.default
  lanes := Lanes.zero
  lfsr := lfsrSeed
  rc := 0
  rnd := 0
  len := 0
  plen := 0
  blk := 0
  pvalid := false
  dvalid := false
  errf := false
  err := .none
  msg := []
  pbuf := []
  dig := []
  host := []
  answer := none

end Sys2Proof.Machine
end

