-- ==== Sys2Proof/Machine/Flags.lean ====
section
/-! DEFINITION. The status flags, the error numbers, and the control registers as the host reads them
(rules R24, R25, R28, R110). -/

namespace Sys2Proof.Machine

/-- The number of an error code (rule R110). -/
def errCode (e : ErrCode) : BitVec 3 :=
  match e with
  | .none => 0
  | .alloc => 1
  | .length => 2
  | .cmd => 3
  | .seq => 4

/-- One bit of a register. -/
def flagBit (b : Bool) : BitVec 1 := BitVec.ofBool b

/-- The register `STATUS`: bit 0 `DVALID`, bit 1 `PVALID`, bit 2 `ERRF`, bits 7:3 zero (rule R28). -/
def State.status (s : State) : BitVec 8 :=
  (0 : BitVec 5) ++ flagBit s.errf ++ flagBit s.pvalid ++ flagBit s.dvalid

/-- The register `ERR`: bits 2:0 the code, bits 7:3 zero (rule R28). -/
def State.errReg (s : State) : BitVec 8 := (0 : BitVec 5) ++ errCode s.err

/-- The register `RND`: bits 4:0 the value, bits 7:5 zero (rule R28). -/
def State.rndReg (s : State) : BitVec 8 := (0 : BitVec 3) ++ s.rnd

/-- The control register with a number; there is none above 8 (rule R28, U22). -/
def State.readReg (s : State) (number : Nat) : Option RegValue :=
  match number with
  | 0 => some (.bits8 s.status)
  | 1 => some (.bits8 s.errReg)
  | 2 => some (.signed s.len)
  | 3 => some (.count s.plen)
  | 4 => some (.count s.nblk)
  | 5 => some (.count s.blk)
  | 6 => some (.bits8 s.rndReg)
  | 7 => some (.bits8 s.lfsr)
  | 8 => some (.bits64 s.rc)
  | _ => none

end Sys2Proof.Machine
end

