-- ==== Sys2Proof/Machine/Operands.lean ====
section
/-! DEFINITION. The operand forms: index arithmetic, rotation, and the little-endian view of bytes and lanes
(rules R37 to R39, R73, R74, R99). -/

namespace Sys2Proof.Machine

/-- The mathematical residue of an integer in 0..4 (rule R74). -/
def mod5 (i : Int) : Fin 5 := ⟨(i % 5).toNat, by omega⟩

/-- Left rotation by 0 ≤ n ≤ 63; the count 0 is the identity and no shift by 64 is made (rules R73, R137). -/
def rotl64 (v : Lane) (n : Fin 64) : Lane :=
  if n.val = 0 then v else (v <<< n.val) ||| (v >>> (64 - n.val))

/-- The number whose little-endian bytes these are: `S[a] + S[a+1]*2^8 + ...` (rule R37). -/
def leNat (bs : List Byte) : Nat :=
  match bs with
  | [] => 0
  | b :: rest => b.toNat + 256 * leNat rest

/-- The lane assembled from eight bytes, the byte at the lowest offset least significant (rule R37). -/
def leLane (bs : List Byte) : Lane := BitVec.ofNat 64 (leNat bs)

/-- Byte `i` of a lane, its bits `8i+7:8i` (rules R9, R39). -/
def laneByte (v : Lane) (i : Nat) : Byte := v.extractLsb' (8 * i) 8

/-- `LE64(v)`: the eight bytes of a lane, least significant first (rules R39, R104). -/
def leBytes (v : Lane) : List Byte := (List.range 8).map (laneByte v)

/-- Word `k` of a block: the lane at its offset `8*k` (rule R99). -/
def blockWord (block : List Byte) (k : Nat) : Lane := leLane ((block.drop (8 * k)).take 8)

end Sys2Proof.Machine
end

