-- ==== Sys2Proof/Machine/Ops.lean ====
section
/-! DEFINITION. The named operations: the byte spaces, the register `LEN`, entering the error state and leaving it, the
hold in the error state, and sequencing (rules R33 to R37, R93, R112, R116 to R118). -/

namespace Sys2Proof.Machine

/-- What an offset that is not listed reads as: no value. A byte of `MSG` the host never placed, and the
"unspecified" bytes of `PBUF` and `DIG`, are never given one (DESIGN CHOICE, log 5, log 6). -/
def memoryUnlisted : Option Byte := none

/-- The canonical form: offsets strictly rising. No entry can equal what an unlisted offset reads as. -/
abbrev Memory.wf (m : Memory) : Prop := m.Pairwise fun c d => c.1 < d.1

/-- One byte of a space, `S[a]` (rule R9). -/
def Memory.read (m : Memory) (a : Nat) : Option Byte :=
  match m with
  | [] => memoryUnlisted
  | c :: rest => if c.1 = a then some c.2 else Memory.read rest a

/-- `n` bytes from an offset on, if each of them has a value. -/
def Memory.readBytes (m : Memory) (a n : Nat) : Option (List Byte) :=
  match n with
  | 0 => some []
  | n + 1 =>
    match m.read a, Memory.readBytes m (a + 1) n with
    | some b, some bs => some (b :: bs)
    | _, _ => none

/-- `MemRead(S, a, 8)` (rules R9, R37). -/
def Memory.readLane (m : Memory) (a : Nat) : Option Lane := (m.readBytes a 8).map leLane

/-- Bytes laid out from an offset on. -/
def cellsFrom (a : Nat) (bs : List Byte) : Memory :=
  match bs with
  | [] => []
  | b :: rest => (a, b) :: cellsFrom (a + 1) rest

/-- Store bytes from an offset on; every other offset keeps what it held. -/
def Memory.store (m : Memory) (a : Nat) (bs : List Byte) : Memory :=
  m.filter (fun c => decide (c.1 < a)) ++ cellsFrom a bs ++ m.filter (fun c => decide (a + bs.length ≤ c.1))

/-- What the register `LEN` holds after a value is written to it: its low `LENW` bits, read in two's complement
(rules R7, R21; log 4). -/
def lenWritten (c : Config) (v : Int) : Int :=
  match c.lenw with
  | none => v
  | some w => (BitVec.ofInt w v).toInt

/-- `raise E`, the whole of the error entry (rule R112). -/
def State.raise (s : State) (e : ErrCode) : State :=
  { s with errf := true, err := e, pvalid := false, dvalid := false }

/-- The writes of `INIT`, which are also the one return from the error state (rules R93, R118). `LEN` and the three byte
spaces keep what they hold. -/
def State.initialise (s : State) : State :=
  { s with
    lanes := Lanes.zero, lfsr := lfsrSeed, rc := 0, rnd := 0, plen := 0, blk := 0,
    pvalid := false, dvalid := false, errf := false, err := .none }

/-- While `ERRF = 1` a command has no effect at all (rules R116 step 3, R117). -/
def unlessError (s : State) (k : Result) : Result := if s.errf then .next s else k

/-- An illegal word: `ERR_CMD`, or nothing in the error state (rules R57, R116 step 2, R117). -/
def illegalCommand (s : State) : Result := unlessError s (.next (s.raise .cmd))

/-- Go on with a next state; a stop stays the same stop. -/
def andThen (r : Result) (k : State → Result) : Result :=
  match r with
  | .next s => k s
  | .fault f => .fault f
  | .refused q => .refused q

/-- The state of a result that is a next state. -/
def resultState (r : Result) : Option State :=
  match r with
  | .next s => some s
  | .fault _ => none
  | .refused _ => none

/-- Write the lanes. -/
def State.withLanes (s : State) (A : Lanes) : State := { s with lanes := A }

/-- Write the generator's registers `LFSR`, `RC` and `RND`. -/
def State.withGenerator (s : State) (lfsr : BitVec 8) (rc : BitVec 64) (rnd : BitVec 5) : State :=
  { s with lfsr := lfsr, rc := rc, rnd := rnd }

end Sys2Proof.Machine
end

