-- ==== Sys2Proof/Machine/RoundConstant.lean ====
section
/-! DEFINITION. The round-constant generator and its commands RCSEED, RCNEXT, RCLD (rules R63 to R72). -/

namespace Sys2Proof.Machine

/-- One LFSR step: the value after it and the output bit (rule R63). -/
def lfsrStep (l : BitVec 8) : BitVec 8 × Bool :=
  (if l.getLsbD 7 then (l <<< 1) ^^^ lfsrPoly else l <<< 1, l.getLsbD 0)

/-- The LFSR value after `n` steps. -/
def lfsrAdvance (n : Nat) (l : BitVec 8) : BitVec 8 :=
  match n with
  | 0 => l
  | n + 1 => lfsrAdvance n (lfsrStep l).1

/-- One bit position of the extraction: output bit `j` goes to position `2^j - 1` (rule R64). -/
def rcExtractBit (cl : Lane × BitVec 8) (j : Nat) : Lane × BitVec 8 :=
  (if (lfsrStep cl.2).2 then cl.1 ||| (1 <<< (2 ^ j - 1)) else cl.1, (lfsrStep cl.2).1)

/-- Extraction of one round constant: the constant and the LFSR value at the end of the round (rule R64). -/
def rcExtract (l : BitVec 8) : Lane × BitVec 8 := (List.range rcBits).foldl rcExtractBit (0, l)

/-- The constant of round `r` with the LFSR value after it, by the run from the seed (rule R65). -/
def rcRun (r : Nat) : Lane × BitVec 8 :=
  match r with
  | 0 => rcExtract lfsrSeed
  | r + 1 => rcExtract (rcRun r).2

/-- `rc(r)` (rule R65); used for `r` in 0..23 only. -/
def rcOf (r : Nat) : Lane := (rcRun r).1

/-- `RCTAB`, the table of the 24 constants (rules R20, R66). The commands use `rcOf`, the LFSR form (R7, D4). -/
def rcTable : List Lane :=
  [0x0000000000000001, 0x0000000000008082, 0x800000000000808A, 0x8000000080008000,
   0x000000000000808B, 0x0000000080000001, 0x8000000080008081, 0x8000000000008009,
   0x000000000000008A, 0x0000000000000088, 0x0000000080008009, 0x000000008000000A] ++
  [0x000000008000808B, 0x800000000000008B, 0x8000000000008089, 0x8000000000008003,
   0x8000000000008002, 0x8000000000000080, 0x000000000000800A, 0x800000008000000A,
   0x8000000080008081, 0x8000000000008080, 0x0000000080000001, 0x8000000080008008]

/-- The column "`LFSR` after" of rule R66; used by no command. -/
def rcAfterTable : List Byte :=
  [0x80, 0xD8, 0x1A, 0xDF, 0x09, 0x35, 0x4F, 0xCA, 0x70, 0x41, 0xEC, 0xD5] ++
  [0xCD, 0x63, 0xAB, 0xAA, 0x2A, 0xF2, 0xE8, 0x37, 0x3E, 0x0B, 0x44, 0x8E]

/-- Seed the generator; `RC` is left unchanged (rule R68). -/
def rcSeedOp (s : State) : State := s.withGenerator lfsrSeed s.rc 0

/-- Produce the next constant, for `RND < 24` (rule R69). -/
def rcNextOp (s : State) : State :=
  s.withGenerator (rcExtract s.lfsr).2 (rcExtract s.lfsr).1 (s.rnd + 1)

/-- Load the constant of round `r`, whatever the generator held (rule R70). -/
def rcLoadOp (r : Nat) (s : State) : State :=
  s.withGenerator (lfsrAdvance (rcBits * (r + 1)) lfsrSeed) (rcOf r) (BitVec.ofNat 5 (r + 1))

/-- `RCSEED` (rule R68). -/
def execRcseed (s : State) : Result := unlessError s (.next (rcSeedOp s))

/-- `RCNEXT` (rule R69): there is no 25th constant (rule R115). -/
def execRcnext (s : State) : Result :=
  unlessError s (if s.rnd.toNat < numRounds then .next (rcNextOp s) else .next (s.raise .seq))

/-- `RCLD r` (rule R70). An `r` above 23 is no command (rule R57): it acts as an illegal word (log 13). -/
def execRcld (r : RoundIndex) (s : State) : Result :=
  if roundIndexLegal r then unlessError s (.next (rcLoadOp r.toNat s)) else illegalCommand s

end Sys2Proof.Machine
end

