-- ==== Sys2Proof/Machine/PermutationRound.lean ====
section
/-! DEFINITION. The permutation round: THETA, RHO, PI, CHI, IOTA, ROUND (rules R73 to R86). -/

namespace Sys2Proof.Machine

/-- Column parity `C[x]` (rule R76). -/
def thetaC (A : Lanes) (x : Fin 5) : Lane :=
  A.lane x 0 ^^^ A.lane x 1 ^^^ A.lane x 2 ^^^ A.lane x 3 ^^^ A.lane x 4

/-- `D[x]` (rule R76). -/
def thetaD (A : Lanes) (x : Fin 5) : Lane :=
  thetaC A (mod5 ((x.val : Int) - 1)) ^^^ rotl64 (thetaC A (mod5 ((x.val : Int) + 1))) 1

/-- Theta: every parity and every `D` from the old state (rules R76, R134). -/
def theta (A : Lanes) : Lanes := Lanes.build fun x y => A.lane x y ^^^ thetaD A x

/-- `RHO_K[0..24]`, the rotation counts by linear index (rule R77). -/
def rhoTable : List (Fin 64) :=
  [0, 1, 62, 28, 27, 36, 44, 6, 55, 20, 3, 10, 43] ++ [25, 39, 41, 45, 15, 21, 8, 18, 2, 61, 56, 14]

/-- `RHO[x][y]` (rule R77). -/
def rhoOffset (x y : Fin 5) : Fin 64 := rhoTable.getD (linearIndex x y) 0

/-- The walk of rule R78: the offset of the position reached after `t` moves is the triangular number of `t + 1`,
mod 64. It derives the table and is used by no command. -/
def rhoWalk (t : Nat) : Fin 5 × Fin 5 :=
  match t with
  | 0 => (1, 0)
  | t + 1 => ((rhoWalk t).2, mod5 (2 * (rhoWalk t).1.val + 3 * (rhoWalk t).2.val))

/-- `((t+1)*(t+2)/2) mod 64` (rule R78). -/
def rhoTriangular (t : Nat) : Nat := (t + 1) * (t + 2) / 2 % 64

/-- Rho: each lane rotates in its place (rule R79). -/
def rho (A : Lanes) : Lanes := Lanes.build fun x y => rotl64 (A.lane x y) (rhoOffset x y)

/-- Pi, in the form a pure function needs: `A'[X][Y] = A[mod5(X + 3*Y)][X]` (rule R80). -/
def piStep (A : Lanes) : Lanes := Lanes.build fun x y => A.lane (mod5 (x.val + 3 * y.val)) x

/-- Chi: all five reads of a row are of the old state (rules R81, R136). -/
def chi (A : Lanes) : Lanes := Lanes.build fun x y =>
  A.lane x y ^^^ (~~~(A.lane (mod5 (x.val + 1)) y) &&& A.lane (mod5 (x.val + 2)) y)

/-- Iota: the constant goes into lane (0,0) only (rule R82). -/
def iota (A : Lanes) (c : Lane) : Lanes := Lanes.build fun x y =>
  if x.val = 0 ∧ y.val = 0 then A.lane x y ^^^ c else A.lane x y

/-- One round on the lanes, in the order theta, rho, pi, chi, iota (rules R83, R84, R133). -/
def roundFn (A : Lanes) (c : Lane) : Lanes := iota (chi (piStep (rho (theta A)))) c

/-- The writes of `THETA`. -/
def thetaOp (s : State) : State := s.withLanes (theta s.lanes)

/-- The writes of `RHO`. -/
def rhoOp (s : State) : State := s.withLanes (rho s.lanes)

/-- The writes of `PI`. -/
def piOp (s : State) : State := s.withLanes (piStep s.lanes)

/-- The writes of `CHI`. -/
def chiOp (s : State) : State := s.withLanes (chi s.lanes)

/-- The writes of `IOTA`: it reads the register `RC`, whatever that holds (rule R82). -/
def iotaOp (s : State) : State := s.withLanes (iota s.lanes s.rc)

/-- The expansion of `ROUND r`: `RCLD r`; `THETA`; `RHO`; `PI`; `CHI`; `IOTA` (rules R60, R83). -/
def roundOp (r : Nat) (s : State) : State := iotaOp (chiOp (piOp (rhoOp (thetaOp (rcLoadOp r s)))))

/-- `THETA` (rule R76). -/
def execTheta (s : State) : Result := unlessError s (.next (thetaOp s))

/-- `RHO` (rule R79). -/
def execRho (s : State) : Result := unlessError s (.next (rhoOp s))

/-- `PI` (rule R80). -/
def execPi (s : State) : Result := unlessError s (.next (piOp s))

/-- `CHI` (rule R81). -/
def execChi (s : State) : Result := unlessError s (.next (chiOp s))

/-- `IOTA` (rule R82). -/
def execIota (s : State) : Result := unlessError s (.next (iotaOp s))

/-- `ROUND r` (rule R83). An `r` above 23 is no command (rule R57): it acts as an illegal word (log 13). -/
def execRound (r : RoundIndex) (s : State) : Result :=
  if roundIndexLegal r then unlessError s (.next (roundOp r.toNat s)) else illegalCommand s

end Sys2Proof.Machine
end

