-- ==== Sys2Proof/Machine/KeccakF.lean ====
section
/-! DEFINITION. The 24-round permutation KECCAKF (rules R87 to R91). -/

namespace Sys2Proof.Machine

/-- Rounds `0` to `n - 1` on the lanes, in increasing order. -/
def roundsFn (n : Nat) (A : Lanes) : Lanes :=
  match n with
  | 0 => A
  | n + 1 => roundFn (roundsFn n A) (rcOf n)

/-- `keccak_f(A)`: exactly 24 rounds (rules R87, R88). -/
def keccakF (A : Lanes) : Lanes := roundsFn numRounds A

/-- The commands `ROUND 0` to `ROUND (n-1)` in order, on the state. -/
def roundsOp (n : Nat) (s : State) : State :=
  match n with
  | 0 => s
  | n + 1 => roundOp n (roundsOp n s)

/-- The expansion of `KECCAKF`: `ROUND 0`; ...; `ROUND 23` (rules R60, R87). -/
def keccakOp (s : State) : State := roundsOp numRounds s

/-- `KECCAKF` (rule R87). -/
def execKeccakf (s : State) : Result := unlessError s (.next (keccakOp s))

end Sys2Proof.Machine
end

