-- ==== Sys2Proof/Machine/Sponge.lean ====
section
/-! DEFINITION. The sponge: INIT, PAD, XORBLK, ABSORB, SQUEEZE, DIGEST (rules R92 to R108). -/

namespace Sys2Proof.Machine

/-- The padded length `plen(n)` (rules R94, R96): an aligned length, 0 among them, is not padded. -/
def paddedLen (n : Nat) : Nat := if n % rateBytes = 0 then n else n + (rateBytes - n % rateBytes)

/-- The number of blocks `nblk(n)` (rule R94). -/
def blockCount (n : Nat) : Nat := paddedLen n / rateBytes

/-- The padding byte at offset `a`, for a message of `n` bytes and `n ≤ a < plen(n)` (rule R97). -/
def padByte (n a : Nat) : Byte :=
  if a = n then (if n + 1 < paddedLen n then suffixByte else joinByte)
  else if a + 1 = paddedLen n then finalByte
  else 0

/-- The content of the padded buffer: the message, then the `plen(n) - n` padding bytes (rule R97). -/
def padMessage (bs : List Byte) : List Byte :=
  bs ++ (List.range (paddedLen bs.length - bs.length)).map fun j => padByte bs.length (bs.length + j)

/-- Whether a padded length fits `LENW - 1` bits (rule R94). -/
def fitsLength (c : Config) (p : Nat) : Bool :=
  match c.lenw with
  | none => true
  | some w => decide (p < 2 ^ (w - 1))

/-- Whether a padded length has room: it does not exceed `PBUF_CAP` (rules R95, R113), and, where a length beyond `LENW - 1`
bits counts as exceeding it (R94), it fits those. R94 and R113 differ, and `lenLimit` takes either (log 19). -/
def fitsBuffer (c : Config) (p : Nat) : Bool :=
  (!c.lenLimit || fitsLength c p) &&
  (match c.pbufCap with
   | none => true
   | some cap => decide (p ≤ cap))

/-- The writes of a `PAD` that succeeds, on the message bytes it reads (rule R98). Bytes of `PBUF` at and after the new
`PLEN` stay as they were (DEDUCED, log 8). -/
def padWrites (s : State) (bs : List Byte) : State :=
  { s with
    plen := paddedLen bs.length, pbuf := s.pbuf.store 0 (padMessage bs), blk := 0,
    pvalid := true, dvalid := false }

/-- `PAD` apart from the hold: the checks in their order, then the writes (rules R95, R98, R111, R113, R116). A byte of the
message that the host never placed is outside the model (rule R45, U17; log 5). -/
def padOp (s : State) : Result :=
  if s.len < 0 then .next (s.raise .length)
  else if fitsBuffer s.cfg (paddedLen s.len.toNat) then
    match s.msg.readBytes 0 s.len.toNat with
    | some bs => .next (padWrites s bs)
    | none => .refused .msgUnreadable
  else .next (s.raise .alloc)

/-- XOR a block's 17 words into the lanes `L[0]`..`L[16]`; the capacity lanes stay (rules R99, R100). -/
def xorBlock (A : Lanes) (block : List Byte) : Lanes := Lanes.build fun x y =>
  if linearIndex x y < wordsPerBlock then A.lane x y ^^^ blockWord block (linearIndex x y) else A.lane x y

/-- The precondition of `XORBLK` and `ABSORB`: a padded buffer with a block left (rule R115). -/
def blockLeft (s : State) : Bool := s.pvalid && decide (s.blk < s.nblk)

/-- The writes of `XORBLK` on the block it reads (rule R100). -/
def xorblkWrites (s : State) (block : List Byte) : State :=
  { s with lanes := xorBlock s.lanes block, blk := s.blk + 1 }

/-- `XORBLK` apart from the hold (rules R100, R115). -/
def xorblkOp (s : State) : Result :=
  if blockLeft s then
    match s.pbuf.readBytes (rateBytes * s.blk) rateBytes with
    | some block => .next (xorblkWrites s block)
    | none => .fault .pbufByteAbsent
  else .next (s.raise .seq)

/-- `ABSORB` apart from the hold: its own check, then `XORBLK`, then `KECCAKF` (rules R60, R101). -/
def absorbOp (s : State) : Result :=
  if blockLeft s then andThen (xorblkOp s) fun t => .next (keccakOp t)
  else .next (s.raise .seq)

/-- The digest read from the first four lanes, little-endian (rules R39, R102, R104). -/
def squeezeBytes (A : Lanes) : List Byte :=
  leBytes (A.linear 0) ++ leBytes (A.linear 1) ++ leBytes (A.linear 2) ++ leBytes (A.linear 3)

/-- The precondition of `SQUEEZE`: every block of a padded buffer absorbed (rule R115). -/
def allAbsorbed (s : State) : Bool := s.pvalid && decide (s.blk = s.nblk)

/-- The writes of `SQUEEZE`: all 32 bytes of `DIG` at once (rules R36, R102). -/
def squeezeWrites (s : State) : State :=
  { s with dig := s.dig.store 0 (squeezeBytes s.lanes), dvalid := true }

/-- `SQUEEZE` apart from the hold (rules R102, R115). -/
def squeezeOp (s : State) : Result :=
  if allAbsorbed s then .next (squeezeWrites s) else .next (s.raise .seq)

/-- `ABSORB` issued `n` times. -/
def absorbMany (n : Nat) (s : State) : Result :=
  match n with
  | 0 => .next s
  | n + 1 => andThen (absorbOp s) (absorbMany n)

/-- `DIGEST`: `INIT`; `PAD`, stopping if it raised; `ABSORB` while `BLK < NBLK`; `SQUEEZE` (rules R60, R103). -/
def digestOp (s : State) : Result :=
  andThen (padOp s.initialise) fun t =>
    if t.errf then .next t else andThen (absorbMany (t.nblk - t.blk) t) squeezeOp

/-- The digest of a message as a function of its bytes: block `b` of the padded message (rule R104). -/
def messageBlock (P : List Byte) (b : Nat) : List Byte := (P.drop (rateBytes * b)).take rateBytes

/-- `S_b`: the lanes after the first `b` blocks of a padded message, from the all-zero state (rule R104). -/
def absorbedLanes (P : List Byte) (b : Nat) : Lanes :=
  match b with
  | 0 => Lanes.zero
  | b + 1 => keccakF (xorBlock (absorbedLanes P b) (messageBlock P b))

/-- The digest as a pure function of the message (rule R104). -/
def digestOf (bs : List Byte) : List Byte :=
  squeezeBytes (absorbedLanes (padMessage bs) (blockCount bs.length))

/-- `INIT` (rule R93): it executes in the error state too, and leaves it (rule R118). -/
def execInit (s : State) : Result := .next s.initialise

/-- `PAD` (rule R98). -/
def execPad (s : State) : Result := unlessError s (padOp s)

/-- `XORBLK` (rule R100). -/
def execXorblk (s : State) : Result := unlessError s (xorblkOp s)

/-- `ABSORB` (rule R101). -/
def execAbsorb (s : State) : Result := unlessError s (absorbOp s)

/-- `SQUEEZE` (rule R102). -/
def execSqueeze (s : State) : Result := unlessError s (squeezeOp s)

/-- `DIGEST` (rule R103): it executes in the error state too, since it begins with `INIT`. -/
def execDigest (s : State) : Result := digestOp s

end Sys2Proof.Machine
end

