-- ==== Sys2Proof/Machine/Dispatch.lean ====
section
/-! DEFINITION. exec: one arm for each command, one direct call of its meaning. -/

namespace Sys2Proof.Machine

def exec (i : Instr) (s : State) : Host.Outcome State Fault Refusal :=
  match i with
  -- round-constant generator
  | .rcseed => Sys2Proof.Machine.execRcseed s
  | .rcnext => Sys2Proof.Machine.execRcnext s
  | .rcld r => Sys2Proof.Machine.execRcld r s
  -- permutation round
  | .theta => Sys2Proof.Machine.execTheta s
  | .rho => Sys2Proof.Machine.execRho s
  | .pi => Sys2Proof.Machine.execPi s
  | .chi => Sys2Proof.Machine.execChi s
  | .iota => Sys2Proof.Machine.execIota s
  | .round r => Sys2Proof.Machine.execRound r s
  -- permutation
  | .keccakf => Sys2Proof.Machine.execKeccakf s
  -- sponge
  | .init => Sys2Proof.Machine.execInit s
  | .pad => Sys2Proof.Machine.execPad s
  | .xorblk => Sys2Proof.Machine.execXorblk s
  | .absorb => Sys2Proof.Machine.execAbsorb s
  | .squeeze => Sys2Proof.Machine.execSqueeze s
  | .digest => Sys2Proof.Machine.execDigest s

end Sys2Proof.Machine
end

