-- ==== Sys2Proof/Machine/HostPort.lean ====
section
/-! DEFINITION. What one action of the host does: a command word presented, a write, a read, a reset
(rules R28, R36, R62, R116, R129, R131). -/

namespace Sys2Proof.Machine

/-- Present a word: decode it, then the command, or the illegal word (rule R116). -/
def presentWord (w : CmdWord) (s : State) : Result :=
  match decode w with
  | .command i => exec i s
  | .illegal _ => illegalCommand s

/-- The host writes `LEN`; a host write is not a command and changes no flag (rules R21, R62). -/
def hostWriteLen (v : Int) (s : State) : Result := .next { s with len := lenWritten s.cfg v }

/-- The host writes bytes of `MSG` (rules R34, R62). -/
def hostWriteMsg (offset : Nat) (bytes : List Byte) (s : State) : Result :=
  .next { s with msg := s.msg.store offset bytes }

/-- The host reads a control register (rule R28). -/
def hostReadReg (number : Nat) (s : State) : Result :=
  match s.readReg number with
  | some v => .next { s with answer := some (.reg number v) }
  | none => .refused .noSuchRegister

/-- The host reads a byte of `DIG`, only while `DVALID = 1` (rules R36, R145). -/
def hostReadDig (offset : Nat) (s : State) : Result :=
  if s.dvalid then
    match (if offset < digestBytes then s.dig.read offset else none) with
    | some b => .next { s with answer := some (.digByte offset b) }
    | none => .refused .digOffset
  else .refused .digNotValid

/-- The state after a reset of a running engine (rules R31, R129): the engine's own state as after reset, the
parameters, the host's buffer and what the host does next as they were (log 12). -/
def State.afterReset (s : State) : State := { State.reset with cfg := s.cfg, msg := s.msg, host := s.host }

/-- One action of the host. -/
def hostAct (a : HostAction) (s : State) : Result :=
  match a with
  | .command w => presentWord w s
  | .writeLen v => hostWriteLen v s
  | .writeMsg offset bytes => hostWriteMsg offset bytes s
  | .readReg number => hostReadReg number s
  | .readDig offset => hostReadDig offset s
  | .reset => .next s.afterReset

/-- What the engine does between the host's actions: nothing (rules R128, R130; log 2). -/
def idle (s : State) : Result := .next s

/-- The state while the host's next action is served: that action is no longer to come. -/
def State.withHost (s : State) (rest : List HostAction) : State := { s with host := rest }

end Sys2Proof.Machine
end

