-- ==== Sys2Proof/Machine/Step.lean ====
section
/-! DEFINITION. The step: the host's next action, or idling; and placing a word as that next action. -/

namespace Sys2Proof.Machine

/-- One step: the engine never fetches by itself and has no queue (rule R62), so a step is the host's next action served
to completion (rules R11, R12), and with none to come the engine is idle (log 1, log 2). -/
def step (s : State) : Host.Outcome State Fault Refusal :=
  match s.host with
  | [] => idle s
  | a :: rest => hostAct a (s.withHost rest)

/-- `s` with this command word as the very next action of the host; what the host was to do comes after it (log 1). -/
def State.withFetchWord (s : State) (nbits w : Nat) : State :=
  { s with host := .command (BitVec.ofNat 16 (w % 2 ^ nbits)) :: s.host }

end Sys2Proof.Machine
end

