-- ==== Sys2Proof/Safety.lean ====
section
/-! DEFINITION. The terms claims are stated in: how a run ends, sequences of commands, a readable message, and the
invariant every step keeps. -/

namespace Sys2Proof.Machine

/-- A run has succeeded: `ERRF = 0` and `DVALID = 1` (rule R150). -/
def State.succeeded (s : State) : Bool := !s.errf && s.dvalid

/-- A run has failed: `ERRF = 1` (rule R150). -/
def State.failed (s : State) : Bool := s.errf

/-- Commands executed one after another; a stop ends the sequence, an error does not (rules R60, R61). -/
def execAll (is : List Instr) (s : State) : Result :=
  match is with
  | [] => .next s
  | i :: rest => andThen (exec i s) (execAll rest)

/-- The host has made all `LEN` bytes of `MSG` readable (rules R45, R131). -/
abbrev messageReadable (s : State) : Prop := ∀ a, a < s.len.toNat → (s.msg.read a).isSome = true

/-- Two states hold the same message: the same `LEN`, and the same bytes of `MSG` below it (rule R105). -/
abbrev sameMessage (s t : State) : Prop :=
  s.len = t.len ∧ ∀ a, a < s.len.toNat → s.msg.read a = t.msg.read a

/-- A padded length of `p` bytes is within `PBUF_CAP` (rules R95, R113), and fits `LENW - 1` bits where a length that does
not counts as exceeding `PBUF_CAP` (R94; a parameter, log 19). -/
def roomFor (c : Config) (p : Nat) : Prop :=
  (∀ cap, c.pbufCap = some cap → p ≤ cap) ∧
  (c.lenLimit = true → ∀ w, c.lenw = some w → p < 2 ^ (w - 1))

/-- The opcodes of format Z with their commands (rule R55). -/
def formatZ : List (Nat × Instr) :=
  [(0x10, .rcseed), (0x12, .rcnext), (0x20, .theta), (0x21, .rho), (0x22, .pi), (0x23, .chi), (0x24, .iota)] ++
  [(0x30, .keccakf), (0x40, .init), (0x41, .pad), (0x42, .xorblk), (0x43, .absorb), (0x44, .squeeze), (0x4F, .digest)]

/-- The opcodes of format R with their commands (rule R55). -/
def formatR : List (Nat × (RoundIndex → Instr)) := [(0x13, .rcld), (0x25, .round)]

/-- The condition of rule R56 under which a word is illegal, on its fields as numbers. -/
def illegalFields (w : CmdWord) : Prop :=
  (w.toNat / 256 ∉ formatZ.map Prod.fst ∧ w.toNat / 256 ∉ formatR.map Prod.fst) ∨
  (w.toNat / 256 ∈ formatZ.map Prod.fst ∧ w.toNat % 256 ≠ 0) ∨
  (w.toNat / 256 ∈ formatR.map Prod.fst ∧ (w.toNat / 32 % 8 ≠ 0 ∨ 24 ≤ w.toNat % 32))

/-- `LEN` fits its `LENW` bits in two's complement (rules R7, R21). -/
def lenInRange (c : Config) (v : Int) : Prop :=
  match c.lenw with
  | none => True
  | some w => -(2 ^ (w - 1) : Int) ≤ v ∧ v < 2 ^ (w - 1)

/-- What holds of every state the engine reaches: the legal values of its registers (rules R17, R19, R22, R23, R28,
R110), the run of the generator (rules R19, R69), the canonical byte spaces, and the bytes the flags vouch for
(rules R35, R36, R45, R119). -/
structure State.Inv (s : State) : Prop where
  cfgWf : s.cfg.wf
  msgWf : s.msg.wf
  pbufWf : s.pbuf.wf
  digWf : s.dig.wf
  digRange : ∀ c ∈ s.dig, c.1 < digestBytes
  rndLegal : s.rnd.toNat ≤ numRounds
  lfsrRun : s.lfsr = lfsrAdvance (rcBits * s.rnd.toNat) lfsrSeed
  rcLast : 0 < s.rnd.toNat → s.rc = rcOf (s.rnd.toNat - 1)
  lenRange : lenInRange s.cfg s.len
  plenAligned : s.plen % rateBytes = 0
  plenFits : fitsBuffer s.cfg s.plen = true
  blkBound : s.blk ≤ s.nblk
  errNone : s.errf = false ↔ s.err = .none
  errFlags : s.errf = true → s.pvalid = false ∧ s.dvalid = false
  dvalidDone : s.dvalid = true → s.pvalid = true ∧ s.blk = s.nblk
  padHeld : s.pvalid = true → ∀ a, a < s.plen → (s.pbuf.read a).isSome = true
  digHeld : s.dvalid = true → ∀ a, a < digestBytes → (s.dig.read a).isSome = true

end Sys2Proof.Machine
end

