-- ==== Sys2Proof/Certificates/Slice0/Obligations.lean ====
section
/-! DEFINITION. The statements for the provers, each from the rules its docstring names. -/

open Sys2Proof Sys2Proof.Machine

/-! Command words -/

/-- Rules R53 to R55: decoding the word of a command, with every legal operand, gives the command. -/
def Obligations.DecodeOfEncode : Prop :=
  ∀ i : Instr, i.wellFormed = true → decode (encode i) = .command i

/-- Rules R53 to R56: a word that decodes to a command is the one word of that command, whose operand is legal. -/
def Obligations.EncodeOfDecode : Prop :=
  ∀ (w : CmdWord) (i : Instr), decode w = .command i → i.wellFormed = true ∧ encode i = w

/-- Rule R55: words written out from the encoding, one or more for each family. -/
def Obligations.SpecWordsDecode : Prop :=
  decode 0b0001000000000000 = .command .rcseed ∧ decode 0b0001001100010111 = .command (.rcld 23) ∧
  decode 0b0010001000000000 = .command .pi ∧ decode 0b0010010100000111 = .command (.round 7) ∧
  decode 0b0011000000000000 = .command .keccakf ∧ decode 0b0100001100000000 = .command .absorb ∧
  decode 0b0100111100000000 = .command .digest ∧ decode 0b0010010100011000 = .illegal .roundIndex ∧
  decode 0b0001001100100000 = .illegal .mustBeZero ∧ decode 0b0001000100000000 = .illegal .unassignedOpcode

/-- Rule R56: which command a word is, by its fields, which words are illegal, and the counts 14, 48 and 62. -/
def Obligations.DecodingByFields : Prop :=
  (∀ w : CmdWord,
    (∀ p ∈ formatZ, w.toNat / 256 = p.1 → w.toNat % 256 = 0 → decode w = .command p.2) ∧
    (∀ p ∈ formatR, w.toNat / 256 = p.1 → w.toNat / 32 % 8 = 0 → w.toNat % 32 ≤ 23 →
      decode w = .command (p.2 (BitVec.ofNat 5 (w.toNat % 32)))) ∧
    (illegalFields w → ∃ why, decode w = .illegal why)) ∧
  (∃ zs rs : List CmdWord, zs.length = 14 ∧ rs.length = 48 ∧ (zs ++ rs).length = 62 ∧ (zs ++ rs).Nodup ∧
    (∀ w, w ∈ zs ↔ w.toNat / 256 ∈ formatZ.map Prod.fst ∧ ∃ i, decode w = .command i) ∧
    (∀ w, w ∈ rs ↔ w.toNat / 256 ∈ formatR.map Prod.fst ∧ ∃ i, decode w = .command i) ∧
    (∀ w, w ∈ zs ++ rs ↔ ∃ i, decode w = .command i))

/-- Rules R62, R116: a presented word that decodes to a command is that command executed, at the state in which the
host's action is no longer to come; and a word placed by `withFetchWord` is executed at once. -/
def Obligations.StepRunsDecodedCommand : Prop :=
  (∀ (s : State) (rest : List HostAction) (w : CmdWord) (i : Instr),
    s.host = .command w :: rest → decode w = .command i → step s = exec i { s with host := rest }) ∧
  (∀ (s : State) (i : Instr), i.wellFormed = true → step (s.withFetchWord 16 (encode i).toNat) = exec i s)

/-- Rules R57, R114, R117: an illegal word raises `ERR_CMD` and changes nothing else; in the error state it changes
nothing. -/
def Obligations.IllegalWordRaisesErrCmd : Prop :=
  ∀ (s : State) (rest : List HostAction) (w : CmdWord), s.host = .command w :: rest → illegalFields w →
    (s.errf = false →
      step s = .next { s with host := rest, errf := true, err := .cmd, pvalid := false, dvalid := false }) ∧
    (s.errf = true → step s = .next { s with host := rest })

/-! The error state -/

/-- Rule R117: in the error state every command but `INIT` and `DIGEST`, and every illegal word, has no effect. -/
def Obligations.ErrorStateHolds : Prop :=
  (∀ (i : Instr) (s : State), s.errf = true → i ≠ .init → i ≠ .digest → exec i s = .next s) ∧
  (∀ (s : State) (rest : List HostAction) (w : CmdWord), s.errf = true → s.host = .command w :: rest →
    illegalFields w → step s = .next { s with host := rest })

/-- Rule R112: a command but `DIGEST` that raises, and an illegal word, writes the four fields and nothing else; a `DIGEST`
that raises leaves the state of its `INIT` with the error. -/
def Obligations.ErrorsArePrecise : Prop :=
  (∀ (i : Instr) (s t : State), i ≠ .digest → s.errf = false → exec i s = .next t → t.errf = true →
    ∃ e, e ≠ ErrCode.none ∧ t = { s with errf := true, err := e, pvalid := false, dvalid := false }) ∧
  (∀ s t : State, exec .digest s = .next t → t.errf = true →
    ∃ e, e ≠ ErrCode.none ∧ (∀ x y, t.lanes.lane x y = 0) ∧
      t = { s with lanes := t.lanes, lfsr := 0x01, rc := 0, rnd := 0, plen := 0, blk := 0,
                   pvalid := false, dvalid := false, errf := true, err := e }) ∧
  (∀ (s : State) (rest : List HostAction) (w : CmdWord), s.host = .command w :: rest → illegalFields w → s.errf = false →
    step s = .next { s with host := rest, errf := true, err := .cmd, pvalid := false, dvalid := false })

/-- Rules R94, R95, R110, R115: which command raises which code, with its cause. Whether a padded length beyond `LENW - 1`
bits is without room is a parameter of the model, since R94 and R113 differ (log 19). -/
def Obligations.ErrorCodeCauses : Prop :=
  (errCode .none = 0 ∧ errCode .alloc = 1 ∧ errCode .length = 2 ∧ errCode .cmd = 3 ∧ errCode .seq = 4) ∧
  (∀ (i : Instr) (s t : State), i.wellFormed = true → s.errf = false → exec i s = .next t → t.errf = true →
    ((i = .pad ∨ i = .digest) ∧ t.err = .length ∧ s.len < 0) ∨
    ((i = .pad ∨ i = .digest) ∧ t.err = .alloc ∧ 0 ≤ s.len ∧ ¬ roomFor s.cfg (paddedLen s.len.toNat)) ∨
    (i = .rcnext ∧ t.err = .seq ∧ 24 ≤ s.rnd.toNat) ∨
    ((i = .xorblk ∨ i = .absorb) ∧ t.err = .seq ∧ (s.pvalid = false ∨ s.nblk ≤ s.blk)) ∨
    (i = .squeeze ∧ t.err = .seq ∧ (s.pvalid = false ∨ s.blk ≠ s.nblk)))

/-- Rule R118: only `INIT`, `DIGEST` and reset leave the error state; `INIT` and reset always do. -/
def Obligations.LeavingTheErrorState : Prop :=
  (∀ s t : State, s.errf = true → step s = .next t → t.errf = false →
    (∃ rest, s.host = .reset :: rest) ∨
    (∃ w rest, s.host = .command w :: rest ∧ (decode w = .command .init ∨ decode w = .command .digest))) ∧
  (∀ s : State, ∃ t, exec .init s = .next t ∧ t.errf = false ∧ t.err = .none) ∧
  (∀ (s : State) (rest : List HostAction), s.host = .reset :: rest →
    ∃ t, step s = .next t ∧ t.errf = false ∧ t.err = .none)

/-- Rule R24: which commands set and clear which flag; and that `INIT`, `PAD` and `SQUEEZE` do so when they succeed (what
a `DIGEST` that succeeds sets is in `DigestComputesFunction`). -/
def Obligations.FlagChanges : Prop :=
  ∀ (i : Instr) (s t : State), exec i s = .next t →
    (s.pvalid = false → t.pvalid = true → i = .pad ∨ i = .digest) ∧
    (s.dvalid = false → t.dvalid = true → i = .squeeze ∨ i = .digest) ∧
    (s.pvalid = true → t.pvalid = false → i = .init ∨ t.errf = true) ∧
    (s.dvalid = true → t.dvalid = false → i = .init ∨ i = .pad ∨ t.errf = true) ∧
    (s.errf = true → t.errf = false → i = .init ∨ i = .digest) ∧
    (s.errf = false → t.errf = true → t.err ≠ .none ∧ t.pvalid = false ∧ t.dvalid = false) ∧
    (i = .init → t.pvalid = false ∧ t.dvalid = false ∧ t.errf = false) ∧
    (i = .pad → s.errf = false → t.dvalid = false ∧ (t.errf = false → t.pvalid = true)) ∧
    (i = .squeeze → s.errf = false → t.errf = false → t.dvalid = true)

/-! Round-constant generator -/

/-- Rule R63: the LFSR step by the value of the register, the sequence from the seed, and the period 255. -/
def Obligations.LfsrStepByValue : Prop :=
  (∀ l : BitVec 8,
    (lfsrStep l).1.toNat = (if l.toNat < 128 then 2 * l.toNat else (2 * l.toNat - 256) ^^^ 0x71) ∧
    (lfsrStep l).2 = decide (l.toNat % 2 = 1) ∧ (l ≠ 0 → (lfsrStep l).1 ≠ 0)) ∧
  (List.range 16).map (fun n => (lfsrAdvance n 0x01).toNat) =
    [0x01, 0x02, 0x04, 0x08, 0x10, 0x20, 0x40, 0x80, 0x71, 0xE2, 0xB5, 0x1B, 0x36, 0x6C, 0xD8, 0xC1] ∧
  (List.range 16).map (fun n => (lfsrStep (lfsrAdvance n 0x01)).2) =
    [true, false, false, false, false, false, false, false, true, false, true, true, false, false, false, true] ∧
  lfsrAdvance 255 0x01 = 0x01 ∧ ∀ n : Nat, 0 < n → n < 255 → lfsrAdvance n 0x01 ≠ 0x01

/-- Rules R66, R67: the table of constants and of LFSR values is the run of the LFSR from the seed. -/
def Obligations.TableEqualsLfsrRun : Prop :=
  rcTable.length = 24 ∧ rcAfterTable.length = 24 ∧
  ∀ r : Nat, r < 24 → rcTable[r]? = some (rcOf r) ∧ rcAfterTable[r]? = some (rcRun r).2

/-- Rule R68: `RCSEED`. -/
def Obligations.RcseedResult : Prop :=
  ∀ s : State,
    (s.errf = false → exec .rcseed s = .next { s with lfsr := 0x01, rnd := 0 }) ∧
    (s.errf = true → exec .rcseed s = .next s)

/-- Rules R64, R69: `RCNEXT` on any `LFSR`: seven steps, and bit `2^j - 1` of the constant is the output of step `j`; no
other bit is set. -/
def Obligations.RcnextResult : Prop :=
  ∀ s : State, s.errf = false → s.rnd.toNat < 24 →
    ∃ c : Lane, exec .rcnext s = .next { s with rc := c, lfsr := lfsrAdvance 7 s.lfsr, rnd := s.rnd + 1 } ∧
      ∀ p : Nat, c.getLsbD p = true ↔ ∃ j : Nat, j < 7 ∧ p = 2 ^ j - 1 ∧ (lfsrStep (lfsrAdvance j s.lfsr)).2 = true

/-- Rule R69, its property: after seeding, the n-th `RCNEXT` has the constant and the `LFSR` value of row `n - 1` of rule
R66. -/
def Obligations.RcnextSequenceAfterSeed : Prop :=
  ∀ (s : State) (n : Nat), s.errf = false → 1 ≤ n → n ≤ 24 →
    execAll (.rcseed :: List.replicate n .rcnext) s =
      .next { s with rc := rcTable.getD (n - 1) 0, lfsr := rcAfterTable.getD (n - 1) 0, rnd := BitVec.ofNat 5 n }

/-- Rule R70: `RCLD r` has the values of row `r` of rule R66, whatever the generator held, and is `RCSEED` followed by
`r + 1` times `RCNEXT`. -/
def Obligations.RcldResult : Prop :=
  ∀ (r : RoundIndex) (s : State), r.toNat ≤ 23 →
    (s.errf = false →
      exec (.rcld r) s =
        .next { s with rc := rcTable.getD r.toNat 0, lfsr := rcAfterTable.getD r.toNat 0, rnd := r + 1 } ∧
      exec (.rcld r) s = execAll (.rcseed :: List.replicate (r.toNat + 1) .rcnext) s) ∧
    (s.errf = true → exec (.rcld r) s = .next s)

/-! Permutation round -/

/-- Rule R73: bit `i` moves to bit `(i + n) mod 64`, and the count 0 is the identity. -/
def Obligations.RotationMovesBits : Prop :=
  (∀ (v : Lane) (n : Fin 64) (i : Nat), i < 64 → (rotl64 v n).getLsbD ((i + n.val) % 64) = v.getLsbD i) ∧
  (∀ v : Lane, rotl64 v 0 = v)

/-- Rule R76: `THETA`; `x + 4` is `x - 1` modulo 5. -/
def Obligations.ThetaResult : Prop :=
  ∀ s : State,
    (s.errf = false → ∃ t, exec .theta s = .next t ∧ t = { s with lanes := t.lanes } ∧
      ∃ C D : Fin 5 → Lane,
        (∀ x, C x = s.lanes.lane x 0 ^^^ s.lanes.lane x 1 ^^^ s.lanes.lane x 2 ^^^ s.lanes.lane x 3 ^^^ s.lanes.lane x 4) ∧
        (∀ x, D x = C (x + 4) ^^^ (C (x + 1)).rotateLeft 1) ∧
        ∀ x y, t.lanes.lane x y = s.lanes.lane x y ^^^ D x) ∧
    (s.errf = true → exec .theta s = .next s)

/-- Rules R77, R79: `RHO`, with the offsets by linear index `x + 5*y`. -/
def Obligations.RhoResult : Prop :=
  ∀ s : State,
    (s.errf = false → ∃ t, exec .rho s = .next t ∧ t = { s with lanes := t.lanes } ∧
      ∀ x y : Fin 5, t.lanes.lane x y = (s.lanes.lane x y).rotateLeft
        ([0, 1, 62, 28, 27, 36, 44, 6, 55, 20, 3, 10, 43, 25, 39, 41, 45, 15, 21, 8, 18, 2, 61, 56, 14].getD
          (x.val + 5 * y.val) 0)) ∧
    (s.errf = true → exec .rho s = .next s)

/-- Rule R78: the offsets are the triangular numbers along the walk from (1,0), which visits each lane but (0,0) once;
the offset of (0,0) is 0. -/
def Obligations.RhoOffsetsByWalk : Prop :=
  rhoOffset 0 0 = 0 ∧ rhoWalk 0 = (1, 0) ∧
  (∀ t : Nat, rhoWalk (t + 1) = ((rhoWalk t).2, 2 * (rhoWalk t).1 + 3 * (rhoWalk t).2)) ∧
  (∀ t : Nat, t < 24 → (rhoOffset (rhoWalk t).1 (rhoWalk t).2).val = ((t + 1) * (t + 2) / 2) % 64) ∧
  (∀ x y : Fin 5, (x, y) ≠ (0, 0) → ∃ t, t < 24 ∧ rhoWalk t = (x, y) ∧ ∀ u, u < 24 → rhoWalk u = (x, y) → u = t)

/-- Rule R80: `PI` writes the lane read from `(x, y)` to `(y, 2x + 3y)`. -/
def Obligations.PiResult : Prop :=
  ∀ s : State,
    (s.errf = false → ∃ t, exec .pi s = .next t ∧ t = { s with lanes := t.lanes } ∧
      ∀ x y : Fin 5, t.lanes.lane y (2 * x + 3 * y) = s.lanes.lane x y) ∧
    (s.errf = true → exec .pi s = .next s)

/-- Rule R81: `CHI`. -/
def Obligations.ChiResult : Prop :=
  ∀ s : State,
    (s.errf = false → ∃ t, exec .chi s = .next t ∧ t = { s with lanes := t.lanes } ∧
      ∀ x y : Fin 5,
        t.lanes.lane x y = s.lanes.lane x y ^^^ (~~~ s.lanes.lane (x + 1) y &&& s.lanes.lane (x + 2) y)) ∧
    (s.errf = true → exec .chi s = .next s)

/-- Rule R82: `IOTA` XORs `RC` into lane (0,0) only; twice restores the lane. -/
def Obligations.IotaResult : Prop :=
  ∀ s : State,
    (s.errf = false → ∃ t, exec .iota s = .next t ∧ t = { s with lanes := t.lanes } ∧
      t.lanes.lane 0 0 = s.lanes.lane 0 0 ^^^ s.rc ∧
      (∀ x y : Fin 5, (x, y) ≠ (0, 0) → t.lanes.lane x y = s.lanes.lane x y) ∧ exec .iota t = .next s) ∧
    (s.errf = true → exec .iota s = .next s)

/-- Rule R86: rho and pi together are one relocation with rotation. -/
def Obligations.RhoPiFused : Prop :=
  ∀ (A : Lanes) (x y : Fin 5),
    (piStep (rho A)).lane y (2 * x + 3 * y) = (A.lane x y).rotateLeft (rhoOffset x y).val

/-- Rule R83: `ROUND r` is its six commands in order; its lanes depend on the lanes and `r` only. -/
def Obligations.RoundResult : Prop :=
  ∀ (r : RoundIndex) (s : State), r.toNat ≤ 23 →
    (exec (.round r) s = execAll [.rcld r, .theta, .rho, .pi, .chi, .iota] s) ∧
    (s.errf = false → exec (.round r) s =
      .next { s with lanes := iota (chi (piStep (rho (theta s.lanes)))) (rcTable.getD r.toNat 0),
                     rc := rcTable.getD r.toNat 0, lfsr := rcAfterTable.getD r.toNat 0, rnd := r + 1 }) ∧
    (s.errf = true → exec (.round r) s = .next s)

/-! Permutation -/

/-- Rules R71, R87: `KECCAKF` is `ROUND 0` to `ROUND 23`; its lanes are 24 rounds with the constants of the table in
order, whatever the generator held. -/
def Obligations.KeccakResult : Prop :=
  ∀ s : State,
    (exec .keccakf s = execAll ((List.range 24).map fun r => .round (BitVec.ofNat 5 r)) s) ∧
    (s.errf = false → exec .keccakf s =
      .next { s with
        lanes := rcTable.foldl (fun A c => iota (chi (piStep (rho (theta A)))) c) s.lanes,
        rc := 0x8000000080008008, lfsr := 0x8E, rnd := 24 }) ∧
    (s.errf = true → exec .keccakf s = .next s)

/-- Rule R89: `KECCAKF` is also `RCSEED` and 24 times `RCNEXT`, `THETA`, `RHO`, `PI`, `CHI`, `IOTA`, the form an LFSR
implementation runs. -/
def Obligations.KeccakSequentialForm : Prop :=
  ∀ s : State, exec .keccakf s =
    execAll (.rcseed :: (List.replicate 24 [Instr.rcnext, .theta, .rho, .pi, .chi, .iota]).flatten) s

/-! Sponge -/

/-- Rule R93: `INIT`, from every state, the error state among them; twice is the same as once. -/
def Obligations.InitResult : Prop :=
  ∀ s : State, ∃ t, exec .init s = .next t ∧ (∀ x y, t.lanes.lane x y = 0) ∧
    t = { s with lanes := t.lanes, lfsr := 0x01, rc := 0, rnd := 0, plen := 0, blk := 0,
                 pvalid := false, dvalid := false, errf := false, err := .none } ∧
    t.nblk = 0 ∧ exec .init t = .next t

/-- Rule R94: the padded length is the length when aligned, and else the least multiple of 136 that is at least the length
plus 1; never 136 bytes are appended. -/
def Obligations.PaddedLengthRule : Prop :=
  ∀ n : Nat,
    (n % 136 = 0 → paddedLen n = n) ∧
    (n % 136 ≠ 0 → paddedLen n = 136 * (n / 136 + 1) ∧ n + 1 ≤ paddedLen n ∧
      ∀ m : Nat, m % 136 = 0 → n + 1 ≤ m → paddedLen n ≤ m) ∧
    n ≤ paddedLen n ∧ paddedLen n - n ≤ 135 ∧ 136 * blockCount n = paddedLen n

/-- Rules R96, R97, R98: `PAD` on a valid length that fits, with a readable message: the message, the padding bytes only
for an unaligned length, and nothing else written. That `PBUF` at and after `PLEN`, to which the spec gives no byte, reads as
before is the model's reading (log 8, DEDUCED). -/
def Obligations.PadResult : Prop :=
  ∀ s : State, s.errf = false → 0 ≤ s.len → roomFor s.cfg (paddedLen s.len.toNat) → messageReadable s →
    ∃ t, exec .pad s = .next t ∧
      t = { s with plen := paddedLen s.len.toNat, pbuf := t.pbuf, blk := 0, pvalid := true, dvalid := false } ∧
      t.nblk = blockCount s.len.toNat ∧
      (∀ a, a < s.len.toNat → t.pbuf.read a = s.msg.read a) ∧
      (∀ a, a = s.len.toNat → a + 1 < t.plen → t.pbuf.read a = some 0x06) ∧
      (∀ a, s.len.toNat < a → a + 1 < t.plen → t.pbuf.read a = some 0x00) ∧
      (∀ a, s.len.toNat < a → a + 1 = t.plen → t.pbuf.read a = some 0x80) ∧
      (∀ a, a = s.len.toNat → a + 1 = t.plen → t.pbuf.read a = some 0x86) ∧
      (∀ a, t.plen ≤ a → t.pbuf.read a = s.pbuf.read a)

/-- Rules R95, R98, R116: the two checks of `PAD` in their order, before anything is read or written. Whether a padded
length beyond `LENW - 1` bits has room is a parameter of the model, since R94 and R113 differ (log 19). -/
def Obligations.PadErrors : Prop :=
  ∀ s : State, s.errf = false →
    (s.len < 0 →
      exec .pad s = .next { s with errf := true, err := .length, pvalid := false, dvalid := false }) ∧
    (0 ≤ s.len → ¬ roomFor s.cfg (paddedLen s.len.toNat) →
      exec .pad s = .next { s with errf := true, err := .alloc, pvalid := false, dvalid := false })

/-- The model's choice (log 5), on what rule R45 leaves outside: `PAD` and `DIGEST` stop, by name, on a message the host
has not made readable. -/
def Obligations.UnreadableMessageStops : Prop :=
  ∀ s : State, 0 ≤ s.len → roomFor s.cfg (paddedLen s.len.toNat) → ¬ messageReadable s →
    (s.errf = false → exec .pad s = .refused .msgUnreadable) ∧ exec .digest s = .refused .msgUnreadable

/-- Rules R99, R100: `XORBLK` on a block left, whose bytes `PBUF` holds. -/
def Obligations.XorblkResult : Prop :=
  ∀ s : State, s.errf = false → s.pvalid = true → s.blk < s.nblk →
    (∀ a, a < 136 → (s.pbuf.read (136 * s.blk + a)).isSome = true) →
    ∃ t, exec .xorblk s = .next t ∧ t = { s with lanes := t.lanes, blk := s.blk + 1 } ∧
      (∀ k : Fin 25, k.val < 17 →
        ∃ v, s.pbuf.readLane (136 * s.blk + 8 * k.val) = some v ∧ t.lanes.linear k = s.lanes.linear k ^^^ v) ∧
      (∀ k : Fin 25, 17 ≤ k.val → t.lanes.linear k = s.lanes.linear k)

/-- Rule R101: `ABSORB` is `XORBLK` then `KECCAKF`; on a block left, whose bytes `PBUF` holds, it answers a next state. -/
def Obligations.AbsorbResult : Prop :=
  (∀ s : State, exec .absorb s = execAll [.xorblk, .keccakf] s) ∧
  (∀ s : State, s.errf = false → s.pvalid = true → s.blk < s.nblk →
    (∀ a, a < 136 → (s.pbuf.read (136 * s.blk + a)).isSome = true) →
    ∃ t block, s.pbuf.readBytes (136 * s.blk) 136 = some block ∧ exec .absorb s = .next t ∧
      t = { s with lanes := keccakF (xorBlock s.lanes block), blk := s.blk + 1,
                   rc := 0x8000000080008008, lfsr := 0x8E, rnd := 24 })

/-- Rule R115: the sequencing preconditions, and that no other command has one. -/
def Obligations.SequencingErrors : Prop :=
  (∀ s : State, s.errf = false →
    (¬ s.rnd.toNat < 24 →
      exec .rcnext s = .next { s with errf := true, err := .seq, pvalid := false, dvalid := false }) ∧
    (¬ (s.pvalid = true ∧ s.blk < s.nblk) →
      exec .xorblk s = .next { s with errf := true, err := .seq, pvalid := false, dvalid := false } ∧
      exec .absorb s = .next { s with errf := true, err := .seq, pvalid := false, dvalid := false }) ∧
    (¬ (s.pvalid = true ∧ s.blk = s.nblk) →
      exec .squeeze s = .next { s with errf := true, err := .seq, pvalid := false, dvalid := false })) ∧
  (∀ (i : Instr) (s t : State), i.wellFormed = true → s.errf = false → exec i s = .next t → t.err = .seq →
    s.err = .seq ∨ i = .rcnext ∨ i = .xorblk ∨ i = .absorb ∨ i = .squeeze)

/-- Rules R39, R102: `SQUEEZE` after the last block: the 32 bytes of the first four lanes, and nothing else written. -/
def Obligations.SqueezeResult : Prop :=
  ∀ s : State, s.errf = false → s.pvalid = true → s.blk = s.nblk →
    ∃ t, exec .squeeze s = .next t ∧ t = { s with dig := t.dig, dvalid := true } ∧
      (∀ (k : Fin 25) (i : Nat), k.val < 4 → i < 8 →
        t.dig.read (8 * k.val + i) = some ((s.lanes.linear k).extractLsb' (8 * i) 8)) ∧
      (∀ a, 32 ≤ a → t.dig.read a = s.dig.read a)

/-- Rules R103, R104: `DIGEST` on a valid length that fits, with a readable message, succeeds and `DIG` holds the digest
function of the message; what it leaves unchanged. That `PBUF` at and after `PLEN`, to which the spec gives no byte, reads
as before is the model's reading (log 8, DEDUCED). -/
def Obligations.DigestComputesFunction : Prop :=
  ∀ s : State, 0 ≤ s.len → roomFor s.cfg (paddedLen s.len.toNat) → messageReadable s →
    ∃ t bs, exec .digest s = .next t ∧ s.msg.readBytes 0 s.len.toNat = some bs ∧
      t.dig.readBytes 0 32 = some (digestOf bs) ∧ (digestOf bs).length = 32 ∧
      t.errf = false ∧ t.err = .none ∧ t.pvalid = true ∧ t.dvalid = true ∧
      t.plen = paddedLen s.len.toNat ∧ t.blk = blockCount s.len.toNat ∧
      t.pbuf.readBytes 0 t.plen = some (padMessage bs) ∧
      t.cfg = s.cfg ∧ t.len = s.len ∧ t.msg = s.msg ∧ t.host = s.host ∧ t.answer = s.answer ∧
      (∀ a, t.plen ≤ a → t.pbuf.read a = s.pbuf.read a) ∧ (∀ a, 32 ≤ a → t.dig.read a = s.dig.read a)

/-- Rules R60, R61, R103: `DIGEST` and the program `INIT`, `PAD`, `ABSORB` for each block, `SQUEEZE` end alike, in every
state; the number of blocks is the length over 136, rounded up. -/
def Obligations.DigestExpansion : Prop :=
  ∀ s : State, exec .digest s =
    execAll (.init :: .pad :: (List.replicate ((s.len.toNat + 135) / 136) .absorb ++ [.squeeze])) s

/-- Rule R105: what `DIGEST` does depends on the message, its length and the parameters only. -/
def Obligations.DigestDependsOnMessageOnly : Prop :=
  ∀ s u : State, s.cfg = u.cfg → sameMessage s u → messageReadable s →
    ∃ t v, exec .digest s = .next t ∧ exec .digest u = .next v ∧
      t.errf = v.errf ∧ t.err = v.err ∧ t.pvalid = v.pvalid ∧ t.dvalid = v.dvalid ∧ t.lanes = v.lanes ∧
      t.lfsr = v.lfsr ∧ t.rc = v.rc ∧ t.rnd = v.rnd ∧ t.plen = v.plen ∧ t.blk = v.blk ∧
      (t.dvalid = true → ∀ a, a < 32 → t.dig.read a = v.dig.read a) ∧
      (t.pvalid = true → ∀ a, a < t.plen → t.pbuf.read a = v.pbuf.read a)

/-- Rule R43: a repeated `DIGEST` ends in the same state. -/
def Obligations.DigestIdempotent : Prop :=
  ∀ s t : State, exec .digest s = .next t → exec .digest t = .next t

/-- Rules R103, R112, R116: a `DIGEST` that fails leaves the state of its `INIT` with the error, from every state. Whether
a padded length beyond `LENW - 1` bits has room is a parameter of the model, since R94 and R113 differ (log 19). -/
def Obligations.FailingDigest : Prop :=
  ∀ s : State,
    (s.len < 0 → exec .digest s =
      .next { s with lanes := Lanes.zero, lfsr := 0x01, rc := 0, rnd := 0, plen := 0, blk := 0,
                     pvalid := false, dvalid := false, errf := true, err := .length }) ∧
    (0 ≤ s.len → ¬ roomFor s.cfg (paddedLen s.len.toNat) → exec .digest s =
      .next { s with lanes := Lanes.zero, lfsr := 0x01, rc := 0, rnd := 0, plen := 0, blk := 0,
                     pvalid := false, dvalid := false, errf := true, err := .alloc })

/-- Rules R96, R103: the empty message: no block, no permutation, a digest of 32 zero bytes. -/
def Obligations.EmptyMessageDigest : Prop :=
  ∀ s : State, s.len = 0 →
    ∃ t, exec .digest s = .next t ∧ t.errf = false ∧ t.dvalid = true ∧ t.plen = 0 ∧ t.nblk = 0 ∧ t.rnd = 0 ∧
      (∀ x y, t.lanes.lane x y = 0) ∧ ∀ a, a < 32 → t.dig.read a = some 0x00

/-- Rule R107: the capacity lanes are written only by `INIT`, the permutation commands, `ABSORB` and `DIGEST`. -/
def Obligations.CapacityLanesUntouched : Prop :=
  ∀ (i : Instr) (s t : State) (k : Fin 25), exec i s = .next t → 17 ≤ k.val →
    i = .init ∨ i = .theta ∨ i = .rho ∨ i = .pi ∨ i = .chi ∨ (∃ r, i = .round r) ∨ i = .keccakf ∨ i = .absorb ∨
      i = .digest ∨ t.lanes.linear k = s.lanes.linear k

/-- Rules R30, R34, R50: no command writes `LEN`, `MSG`, the parameters or what belongs to the host; only `PAD` and
`DIGEST` write `PBUF`, and only `SQUEEZE` and `DIGEST` write `DIG`. -/
def Obligations.CommandsLeaveHostAlone : Prop :=
  ∀ (i : Instr) (s t : State), exec i s = .next t →
    t.len = s.len ∧ t.msg = s.msg ∧ t.cfg = s.cfg ∧ t.host = s.host ∧ t.answer = s.answer ∧
    (i ≠ .pad → i ≠ .digest → t.pbuf = s.pbuf) ∧ (i ≠ .squeeze → i ≠ .digest → t.dig = s.dig)

/-! Bytes and lanes -/

/-- Rule R38: bit `i` of byte `j` is bit `8j + i` of the lane. -/
def Obligations.LittleEndianBits : Prop :=
  ∀ (m : Memory) (a : Nat) (v : Lane), m.readLane a = some v →
    ∀ i j : Nat, i < 8 → j < 8 → ∃ b, m.read (a + j) = some b ∧ v.getLsbD (8 * j + i) = b.getLsbD i

/-! The whole machine -/

/-- Every step keeps the invariant, from every state that has it (rules R17, R19, R22, R23, R28, R35, R36, R119). -/
def Obligations.StepKeepsInvariant : Prop :=
  ∀ s t : State, s.Inv → step s = .next t → t.Inv

/-- The state after reset has the invariant (rule R31). -/
def Obligations.ResetHasInvariant : Prop := State.reset.Inv

/-- Rules R85, R91: every command answers a next state in every state that has the invariant; `PAD` and `DIGEST` need the
message the host owes them (rule R45). -/
def Obligations.EveryCommandCompletes : Prop :=
  ∀ (i : Instr) (s : State), s.Inv → ((i = .pad ∨ i = .digest) → messageReadable s) → ∃ t, exec i s = .next t

/-- Rule R31: the values after reset. -/
def Obligations.ResetValues : Prop :=
  (∀ x y, State.reset.lanes.lane x y = 0) ∧ State.reset.lfsr = 0x01 ∧ State.reset.rc = 0 ∧ State.reset.rnd = 0 ∧
  State.reset.len = 0 ∧ State.reset.plen = 0 ∧ State.reset.nblk = 0 ∧ State.reset.blk = 0 ∧
  State.reset.pvalid = false ∧ State.reset.dvalid = false ∧ State.reset.errf = false ∧
  State.reset.err = .none ∧ State.reset.status = 0x00

/-- Rule R129: a reset between commands gives the values of rule R31; but for `LEN`, the engine's registers, lanes and
flags are as `INIT` leaves them. That the parameters and `MSG` stay is the model's choice (log 12). -/
def Obligations.ResetActionResult : Prop :=
  ∀ (s : State) (rest : List HostAction), s.host = .reset :: rest →
    ∃ t u, step s = .next t ∧ exec .init s = .next u ∧ t.len = 0 ∧ (∀ x y, t.lanes.lane x y = 0) ∧
      t.lfsr = 0x01 ∧ t.rc = 0 ∧ t.rnd = 0 ∧ t.plen = 0 ∧ t.nblk = 0 ∧ t.blk = 0 ∧ t.pvalid = false ∧
      t.dvalid = false ∧ t.errf = false ∧ t.err = .none ∧
      t = { u with len := 0, pbuf := t.pbuf, dig := t.dig, answer := t.answer, host := rest }

/-! The host's side -/

/-- Rule R28: the control registers as the host reads them, by number; there is none above 8. -/
def Obligations.RegisterReads : Prop :=
  ∀ (s : State) (rest : List HostAction) (n : Nat), s.host = .readReg n :: rest →
    (8 < n → step s = .refused .noSuchRegister) ∧
    (n ≤ 8 → ∃ v, step s = .next { s with host := rest, answer := some (.reg n v) } ∧
      (n = 0 → ∃ b, v = .bits8 b ∧ b.getLsbD 0 = s.dvalid ∧ b.getLsbD 1 = s.pvalid ∧ b.getLsbD 2 = s.errf ∧
        ∀ i, 3 ≤ i → b.getLsbD i = false) ∧
      (n = 1 → ∃ b, v = .bits8 b ∧ b.toNat = (errCode s.err).toNat) ∧
      (n = 2 → v = .signed s.len) ∧ (n = 3 → v = .count s.plen) ∧ (n = 4 → v = .count (s.plen / 136)) ∧
      (n = 5 → v = .count s.blk) ∧ (n = 6 → ∃ b, v = .bits8 b ∧ b.toNat = s.rnd.toNat) ∧
      (n = 7 → v = .bits8 s.lfsr) ∧ (n = 8 → v = .bits64 s.rc))

/-- Rule R36: the host reads `DIG` only while `DVALID = 1`, and then each of its 32 bytes. -/
def Obligations.DigestReadGate : Prop :=
  ∀ (s : State) (rest : List HostAction) (a : Nat), s.host = .readDig a :: rest →
    (s.dvalid = false → step s = .refused .digNotValid) ∧
    (s.dvalid = true → 32 ≤ a → step s = .refused .digOffset) ∧
    (s.Inv → s.dvalid = true → a < 32 →
      ∃ b, s.dig.read a = some b ∧ step s = .next { s with host := rest, answer := some (.digByte a b) })

/-- Rules R21, R62: the host writes `LEN`, in the error state too; with a bounded `LENW` the value kept is the one its low
bits stand for, which is the model's reading of the register's width (log 4). -/
def Obligations.HostWritesLen : Prop :=
  ∀ (s : State) (rest : List HostAction) (v : Int), s.host = .writeLen v :: rest →
    ∃ t, step s = .next t ∧ t = { s with host := rest, len := t.len } ∧
      (s.cfg.lenw = none → t.len = v) ∧
      (∀ w, s.cfg.lenw = some w → 0 < w →
        -(2 ^ (w - 1) : Int) ≤ t.len ∧ t.len < 2 ^ (w - 1) ∧ ((2 ^ w : Int) ∣ t.len - v))

/-- Rules R34, R62: the host writes bytes of `MSG`, and no other state changes. -/
def Obligations.HostWritesMessage : Prop :=
  ∀ (s : State) (rest : List HostAction) (a : Nat) (bs : List Byte), s.host = .writeMsg a bs :: rest →
    ∃ t, step s = .next t ∧ t = { s with host := rest, msg := t.msg } ∧
      (∀ j, j < bs.length → t.msg.read (a + j) = bs[j]?) ∧
      (∀ b, b < a ∨ a + bs.length ≤ b → t.msg.read b = s.msg.read b)

/-! The length limits -/

/-- Rule R113: with `PBUF_CAP` unbounded, `ERR_ALLOC` never occurs. It holds where the test of R113 stands alone, and
where `LENW` is unbounded too, as after reset; the third case, where R94 is taken instead, is
`LengthBeyondItsBitsHasNoRoom`. The parameter is the model's choice (log 19). -/
def Obligations.UnboundedBufferNeverFails : Prop :=
  ∀ s t : State, s.cfg.pbufCap = none → s.cfg.lenLimit = false ∨ s.cfg.lenw = none → s.err ≠ .alloc →
    step s = .next t → t.err ≠ .alloc ∧ t.cfg = s.cfg

/-- Rule R94, last sentence: where it is taken, a padded length that does not fit `LENW - 1` bits counts as exceeding
`PBUF_CAP`, whatever that is, so `PAD` and `DIGEST` raise `ERR_ALLOC`. The parameter is the model's choice (log 19). -/
def Obligations.LengthBeyondItsBitsHasNoRoom : Prop :=
  ∀ (s : State) (w : Nat), s.cfg.lenLimit = true → s.cfg.lenw = some w → 0 ≤ s.len →
    2 ^ (w - 1) ≤ paddedLen s.len.toNat →
    (s.errf = false →
      exec .pad s = .next { s with errf := true, err := .alloc, pvalid := false, dvalid := false }) ∧
    (∃ t, exec .digest s = .next t ∧ t.errf = true ∧ t.err = .alloc)
end

