-- ==== Sys2Proof/Laws/Generator.lean ====
section
/-! SUPPORT. The run of the generator: the LFSR value after rounds, and the constants by the value they start from
(rules R64, R65). -/

namespace Sys2Proof.Machine

theorem lfsrAdvance_add (m n : Nat) (l : BitVec 8) : lfsrAdvance (m + n) l = lfsrAdvance n (lfsrAdvance m l) := by
  induction m generalizing l with
  | zero => simp [lfsrAdvance]
  | succ m ih => rw [Nat.succ_add]; exact ih _

/-- An extraction takes exactly seven LFSR steps (rule R64). -/
theorem rcExtract_lfsr (l : BitVec 8) : (rcExtract l).2 = lfsrAdvance rcBits l := rfl

theorem lfsrAdvance_succ_round (n : Nat) (l : BitVec 8) :
    lfsrAdvance (rcBits * (n + 1)) l = lfsrAdvance rcBits (lfsrAdvance (rcBits * n) l) := by
  rw [Nat.mul_succ, lfsrAdvance_add]

/-- The LFSR after the constant of round `r`: `7*(r+1)` steps from the seed (rule R65). -/
theorem rcRun_lfsr (r : Nat) : (rcRun r).2 = lfsrAdvance (rcBits * (r + 1)) lfsrSeed := by
  induction r with
  | zero => rfl
  | succ r ih => rw [rcRun, rcExtract_lfsr, ih, ← lfsrAdvance_succ_round]

/-- `rc(r)` is the extraction from the LFSR after `7*r` steps (rule R65). -/
theorem rcOf_eq_extract (r : Nat) : rcOf r = (rcExtract (lfsrAdvance (rcBits * r) lfsrSeed)).1 := by
  cases r with
  | zero => rfl
  | succ r => rw [rcOf, rcRun, rcRun_lfsr]

end Sys2Proof.Machine
end

