-- ==== Sys2Proof/Laws/Lanes.lean ====
section
/-! SUPPORT. Reading a matrix that was built, and equality of matrices lane by lane (rules R13, R14). -/

namespace Sys2Proof.Machine

@[simp] theorem fiveGet_fiveBuild {α : Type} (f : Fin 5 → α) (i : Fin 5) : fiveGet (fiveBuild f) i = f i := by
  fin_cases i <;> rfl

theorem five_ext {α : Type} {v w : Five α} (h : ∀ i, fiveGet v i = fiveGet w i) : v = w := by
  cases v; cases w
  simp only [Five.mk.injEq]
  exact ⟨h 0, h 1, h 2, h 3, h 4⟩

@[simp] theorem lane_build (f : Fin 5 → Fin 5 → Lane) (x y : Fin 5) : (Lanes.build f).lane x y = f x y := by
  simp [Lanes.lane, Lanes.build]

/-- Two matrices with the same 25 lanes are equal. -/
theorem lanes_ext {A B : Lanes} (h : ∀ x y, A.lane x y = B.lane x y) : A = B :=
  five_ext fun x => five_ext fun y => h x y

@[simp] theorem zero_lane (x y : Fin 5) : Lanes.zero.lane x y = 0 := by simp [Lanes.zero]

/-- `L[x + 5*y]` is `A[x][y]` (rule R14). -/
theorem linear_linearIndex (A : Lanes) (x y : Fin 5) (h : linearIndex x y < 25) :
    A.linear ⟨linearIndex x y, h⟩ = A.lane x y := by
  have hx : (linearIndex x y) % 5 = x.val := by unfold linearIndex; omega
  have hy : (linearIndex x y) / 5 = y.val := by unfold linearIndex; omega
  simp [Lanes.linear, hx, hy]

theorem linearIndex_lt (x y : Fin 5) : linearIndex x y < 25 := by unfold linearIndex; omega

/-- The linear index of `(k mod 5, k div 5)` is `k` (rule R14). -/
theorem linearIndex_divMod (k : Fin 25) :
    linearIndex ⟨k.val % 5, Nat.mod_lt _ (by decide)⟩ ⟨k.val / 5, by omega⟩ = k.val := by
  simp only [linearIndex]; omega

end Sys2Proof.Machine
end

