-- ==== Sys2Proof/Laws/Memory.lean ====
section
/-! SUPPORT. The byte spaces: what a store leaves to be read, and that it keeps the canonical form. -/

namespace Sys2Proof.Machine

@[simp] theorem read_nil (a : Nat) : Memory.read [] a = none := rfl

theorem read_cons (c : Host.Cell) (m : Memory) (a : Nat) :
    Memory.read (c :: m) a = if c.1 = a then some c.2 else Memory.read m a := rfl

theorem read_append (m n : Memory) (a : Nat) :
    Memory.read (m ++ n) a = (Memory.read m a).or (Memory.read n a) := by
  induction m with
  | nil => simp
  | cons c m ih => by_cases h : c.1 = a <;> simp [read_cons, h, ih]

/-- A filter on offsets keeps the reads at the offsets it keeps, and no others. -/
theorem read_filter (m : Memory) (p : Nat → Bool) (a : Nat) :
    Memory.read (m.filter fun c => p c.1) a = if p a then Memory.read m a else none := by
  induction m with
  | nil => simp
  | cons c m ih =>
    by_cases h : c.1 = a
    · subst h
      by_cases hp : p c.1 <;> simp [hp, read_cons, ih]
    · by_cases hp : p c.1 <;> simp [hp, read_cons, ih, h]

theorem read_cellsFrom (bs : List Byte) (a b : Nat) :
    Memory.read (cellsFrom a bs) b = if a ≤ b then bs[b - a]? else none := by
  induction bs generalizing a with
  | nil => simp [cellsFrom]
  | cons c bs ih =>
    rw [cellsFrom, read_cons, ih]
    rcases Nat.lt_trichotomy a b with h | h | h
    · have e : b - a = (b - (a + 1)) + 1 := by omega
      simp [Nat.ne_of_lt h, Nat.le_of_lt h, Nat.succ_le_of_lt h, e]
    · subst h; simp
    · simp [Nat.ne_of_gt h, Nat.not_le.mpr h, Nat.not_le.mpr (Nat.lt_succ_of_lt h)]

/-- Read after a store: the stored byte inside the stored bytes, what was there before outside. -/
theorem read_store (m : Memory) (a : Nat) (bs : List Byte) (b : Nat) :
    (m.store a bs).read b = if a ≤ b ∧ b < a + bs.length then bs[b - a]? else m.read b := by
  have h1 := read_filter m (fun k => decide (k < a)) b
  have h2 := read_filter m (fun k => decide (a + bs.length ≤ k)) b
  rw [Memory.store, read_append, read_append, h1, h2, read_cellsFrom]
  by_cases hlo : b < a
  · have n1 : ¬ a ≤ b := by omega
    have n2 : ¬ a + bs.length ≤ b := by omega
    simp [hlo, n1, n2]
  · by_cases hhi : b < a + bs.length
    · have n2 : ¬ a + bs.length ≤ b := by omega
      simp [hlo, Nat.not_lt.mp hlo, hhi, n2]
    · have e : bs[b - a]? = none := List.getElem?_eq_none (by omega)
      simp [hlo, hhi, Nat.not_lt.mp hhi, e]

theorem read_store_outside (m : Memory) (a : Nat) (bs : List Byte) (b : Nat)
    (h : b < a ∨ a + bs.length ≤ b) : (m.store a bs).read b = m.read b := by
  rw [read_store, if_neg (by omega)]

theorem mem_cellsFrom {bs : List Byte} {a : Nat} {c : Host.Cell} (h : c ∈ cellsFrom a bs) :
    a ≤ c.1 ∧ c.1 < a + bs.length := by
  induction bs generalizing a with
  | nil => simp [cellsFrom] at h
  | cons b bs ih =>
    simp only [cellsFrom, List.mem_cons] at h
    rcases h with rfl | h
    · simp
    · have := ih h; simp only [List.length_cons]; omega

theorem cellsFrom_wf (bs : List Byte) (a : Nat) : (cellsFrom a bs).wf := by
  induction bs generalizing a with
  | nil => simp [cellsFrom]
  | cons b bs ih =>
    refine List.Pairwise.cons ?_ (ih _)
    intro c hc
    have := (mem_cellsFrom hc).1
    show a < c.1
    omega

/-- What an entry of a store is: one of the stored bytes, or an entry that was there. -/
theorem mem_store {m : Memory} {a : Nat} {bs : List Byte} {c : Host.Cell} (h : c ∈ m.store a bs) :
    c ∈ m ∨ (a ≤ c.1 ∧ c.1 < a + bs.length) := by
  simp only [Memory.store, List.mem_append, List.mem_filter] at h
  rcases h with (h | h) | h
  · exact .inl h.1
  · exact .inr (mem_cellsFrom h)
  · exact .inl h.1

/-- A store keeps the canonical form. -/
theorem store_wf {m : Memory} (h : m.wf) (a : Nat) (bs : List Byte) : (m.store a bs).wf := by
  unfold Memory.store
  refine List.pairwise_append.mpr ⟨List.pairwise_append.mpr ⟨h.filter _, cellsFrom_wf bs a, ?_⟩, h.filter _, ?_⟩
  · intro c hc d hd
    have h1 := (List.mem_filter.mp hc).2
    have h2 := (mem_cellsFrom hd).1
    simp only [decide_eq_true_eq] at h1
    omega
  · intro c hc d hd
    have h2 := (List.mem_filter.mp hd).2
    simp only [decide_eq_true_eq] at h2
    rcases List.mem_append.mp hc with hc | hc
    · have h1 := (List.mem_filter.mp hc).2
      simp only [decide_eq_true_eq] at h1
      omega
    · have := (mem_cellsFrom hc).2
      omega

/-- Reading `n` bytes gives `bs` exactly when `bs` is the `n` bytes read one by one. -/
theorem readBytes_eq_some {m : Memory} {n : Nat} {a : Nat} {bs : List Byte} :
    m.readBytes a n = some bs ↔ bs.length = n ∧ ∀ j, j < n → m.read (a + j) = bs[j]? := by
  induction n generalizing a bs with
  | zero =>
    simp only [Memory.readBytes, Option.some.injEq]
    constructor
    · rintro rfl; simp
    · rintro ⟨h, -⟩; exact (List.eq_nil_of_length_eq_zero h).symm
  | succ n ih =>
    simp only [Memory.readBytes]
    constructor
    · intro h
      split at h
      · rename_i b cs hb hcs
        simp only [Option.some.injEq] at h
        subst h
        obtain ⟨hl, hr⟩ := ih.mp hcs
        refine ⟨by simp [hl], ?_⟩
        intro j hj
        cases j with
        | zero => simpa using hb
        | succ j =>
          have := hr j (by omega)
          simpa [Nat.add_assoc, Nat.add_comm 1 j] using this
      · simp at h
    · rintro ⟨hl, hr⟩
      cases bs with
      | nil => simp at hl
      | cons b cs =>
        have h0 : m.read a = some b := by simpa using hr 0 (by omega)
        have h1 : m.readBytes (a + 1) n = some cs := by
          refine ih.mpr ⟨by simpa using hl, ?_⟩
          intro j hj
          have := hr (j + 1) (by omega)
          simpa [Nat.add_assoc, Nat.add_comm 1 j] using this
        simp [h0, h1]

/-- `n` bytes can be read exactly when each of them has a value. -/
theorem readBytes_isSome {m : Memory} {n : Nat} {a : Nat} :
    (m.readBytes a n).isSome = true ↔ ∀ j, j < n → (m.read (a + j)).isSome = true := by
  induction n generalizing a with
  | zero => simp [Memory.readBytes]
  | succ n ih =>
    constructor
    · intro h j hj
      obtain ⟨bs, hbs⟩ := Option.isSome_iff_exists.mp h
      obtain ⟨hl, hr⟩ := readBytes_eq_some.mp hbs
      rw [hr j hj]
      simp [hl, hj]
    · intro h
      have h0 : (m.read a).isSome = true := by simpa using h 0 (by omega)
      have h1 : (m.readBytes (a + 1) n).isSome = true := by
        refine ih.mpr fun j hj => ?_
        have := h (j + 1) (by omega)
        simpa [Nat.add_assoc, Nat.add_comm 1 j] using this
      obtain ⟨b, hb⟩ := Option.isSome_iff_exists.mp h0
      obtain ⟨cs, hcs⟩ := Option.isSome_iff_exists.mp h1
      simp [Memory.readBytes, hb, hcs]

/-- The bytes of a store read back. -/
theorem readBytes_store (m : Memory) (a : Nat) (bs : List Byte) :
    (m.store a bs).readBytes a bs.length = some bs := by
  refine readBytes_eq_some.mpr ⟨rfl, fun j hj => ?_⟩
  rw [read_store, if_pos (by omega)]
  simp

end Sys2Proof.Machine
end

