-- ==== Sys2Proof/Laws/State.lean ====
section
/-! SUPPORT. One lemma for each field of State and each named update of it, true by rfl. -/

namespace Sys2Proof.Machine

@[simp] theorem State.raise_cfg (s : State) (e : ErrCode) : (s.raise e).cfg = s.cfg := rfl
@[simp] theorem State.raise_lanes (s : State) (e : ErrCode) : (s.raise e).lanes = s.lanes := rfl
@[simp] theorem State.raise_lfsr (s : State) (e : ErrCode) : (s.raise e).lfsr = s.lfsr := rfl
@[simp] theorem State.raise_rc (s : State) (e : ErrCode) : (s.raise e).rc = s.rc := rfl
@[simp] theorem State.raise_rnd (s : State) (e : ErrCode) : (s.raise e).rnd = s.rnd := rfl
@[simp] theorem State.raise_len (s : State) (e : ErrCode) : (s.raise e).len = s.len := rfl
@[simp] theorem State.raise_plen (s : State) (e : ErrCode) : (s.raise e).plen = s.plen := rfl
@[simp] theorem State.raise_blk (s : State) (e : ErrCode) : (s.raise e).blk = s.blk := rfl
@[simp] theorem State.raise_pvalid (s : State) (e : ErrCode) : (s.raise e).pvalid = false := rfl
@[simp] theorem State.raise_dvalid (s : State) (e : ErrCode) : (s.raise e).dvalid = false := rfl
@[simp] theorem State.raise_errf (s : State) (e : ErrCode) : (s.raise e).errf = true := rfl
@[simp] theorem State.raise_err (s : State) (e : ErrCode) : (s.raise e).err = e := rfl
@[simp] theorem State.raise_msg (s : State) (e : ErrCode) : (s.raise e).msg = s.msg := rfl
@[simp] theorem State.raise_pbuf (s : State) (e : ErrCode) : (s.raise e).pbuf = s.pbuf := rfl
@[simp] theorem State.raise_dig (s : State) (e : ErrCode) : (s.raise e).dig = s.dig := rfl
@[simp] theorem State.raise_host (s : State) (e : ErrCode) : (s.raise e).host = s.host := rfl
@[simp] theorem State.raise_answer (s : State) (e : ErrCode) : (s.raise e).answer = s.answer := rfl

@[simp] theorem State.initialise_cfg (s : State) : s.initialise.cfg = s.cfg := rfl
@[simp] theorem State.initialise_lanes (s : State) : s.initialise.lanes = Lanes.zero := rfl
@[simp] theorem State.initialise_lfsr (s : State) : s.initialise.lfsr = lfsrSeed := rfl
@[simp] theorem State.initialise_rc (s : State) : s.initialise.rc = 0 := rfl
@[simp] theorem State.initialise_rnd (s : State) : s.initialise.rnd = 0 := rfl
@[simp] theorem State.initialise_len (s : State) : s.initialise.len = s.len := rfl
@[simp] theorem State.initialise_plen (s : State) : s.initialise.plen = 0 := rfl
@[simp] theorem State.initialise_blk (s : State) : s.initialise.blk = 0 := rfl
@[simp] theorem State.initialise_pvalid (s : State) : s.initialise.pvalid = false := rfl
@[simp] theorem State.initialise_dvalid (s : State) : s.initialise.dvalid = false := rfl
@[simp] theorem State.initialise_errf (s : State) : s.initialise.errf = false := rfl
@[simp] theorem State.initialise_err (s : State) : s.initialise.err = .none := rfl
@[simp] theorem State.initialise_msg (s : State) : s.initialise.msg = s.msg := rfl
@[simp] theorem State.initialise_pbuf (s : State) : s.initialise.pbuf = s.pbuf := rfl
@[simp] theorem State.initialise_dig (s : State) : s.initialise.dig = s.dig := rfl
@[simp] theorem State.initialise_host (s : State) : s.initialise.host = s.host := rfl
@[simp] theorem State.initialise_answer (s : State) : s.initialise.answer = s.answer := rfl

@[simp] theorem State.withLanes_cfg (s : State) (A : Lanes) : (s.withLanes A).cfg = s.cfg := rfl
@[simp] theorem State.withLanes_lanes (s : State) (A : Lanes) : (s.withLanes A).lanes = A := rfl
@[simp] theorem State.withLanes_lfsr (s : State) (A : Lanes) : (s.withLanes A).lfsr = s.lfsr := rfl
@[simp] theorem State.withLanes_rc (s : State) (A : Lanes) : (s.withLanes A).rc = s.rc := rfl
@[simp] theorem State.withLanes_rnd (s : State) (A : Lanes) : (s.withLanes A).rnd = s.rnd := rfl
@[simp] theorem State.withLanes_len (s : State) (A : Lanes) : (s.withLanes A).len = s.len := rfl
@[simp] theorem State.withLanes_plen (s : State) (A : Lanes) : (s.withLanes A).plen = s.plen := rfl
@[simp] theorem State.withLanes_blk (s : State) (A : Lanes) : (s.withLanes A).blk = s.blk := rfl
@[simp] theorem State.withLanes_pvalid (s : State) (A : Lanes) : (s.withLanes A).pvalid = s.pvalid := rfl
@[simp] theorem State.withLanes_dvalid (s : State) (A : Lanes) : (s.withLanes A).dvalid = s.dvalid := rfl
@[simp] theorem State.withLanes_errf (s : State) (A : Lanes) : (s.withLanes A).errf = s.errf := rfl
@[simp] theorem State.withLanes_err (s : State) (A : Lanes) : (s.withLanes A).err = s.err := rfl
@[simp] theorem State.withLanes_msg (s : State) (A : Lanes) : (s.withLanes A).msg = s.msg := rfl
@[simp] theorem State.withLanes_pbuf (s : State) (A : Lanes) : (s.withLanes A).pbuf = s.pbuf := rfl
@[simp] theorem State.withLanes_dig (s : State) (A : Lanes) : (s.withLanes A).dig = s.dig := rfl
@[simp] theorem State.withLanes_host (s : State) (A : Lanes) : (s.withLanes A).host = s.host := rfl
@[simp] theorem State.withLanes_answer (s : State) (A : Lanes) : (s.withLanes A).answer = s.answer := rfl

@[simp] theorem State.withGenerator_cfg (s : State) (l : BitVec 8) (c : BitVec 64) (n : BitVec 5) : (s.withGenerator l c n).cfg = s.cfg := rfl
@[simp] theorem State.withGenerator_lanes (s : State) (l : BitVec 8) (c : BitVec 64) (n : BitVec 5) : (s.withGenerator l c n).lanes = s.lanes := rfl
@[simp] theorem State.withGenerator_lfsr (s : State) (l : BitVec 8) (c : BitVec 64) (n : BitVec 5) : (s.withGenerator l c n).lfsr = l := rfl
@[simp] theorem State.withGenerator_rc (s : State) (l : BitVec 8) (c : BitVec 64) (n : BitVec 5) : (s.withGenerator l c n).rc = c := rfl
@[simp] theorem State.withGenerator_rnd (s : State) (l : BitVec 8) (c : BitVec 64) (n : BitVec 5) : (s.withGenerator l c n).rnd = n := rfl
@[simp] theorem State.withGenerator_len (s : State) (l : BitVec 8) (c : BitVec 64) (n : BitVec 5) : (s.withGenerator l c n).len = s.len := rfl
@[simp] theorem State.withGenerator_plen (s : State) (l : BitVec 8) (c : BitVec 64) (n : BitVec 5) : (s.withGenerator l c n).plen = s.plen := rfl
@[simp] theorem State.withGenerator_blk (s : State) (l : BitVec 8) (c : BitVec 64) (n : BitVec 5) : (s.withGenerator l c n).blk = s.blk := rfl
@[simp] theorem State.withGenerator_pvalid (s : State) (l : BitVec 8) (c : BitVec 64) (n : BitVec 5) : (s.withGenerator l c n).pvalid = s.pvalid := rfl
@[simp] theorem State.withGenerator_dvalid (s : State) (l : BitVec 8) (c : BitVec 64) (n : BitVec 5) : (s.withGenerator l c n).dvalid = s.dvalid := rfl
@[simp] theorem State.withGenerator_errf (s : State) (l : BitVec 8) (c : BitVec 64) (n : BitVec 5) : (s.withGenerator l c n).errf = s.errf := rfl
@[simp] theorem State.withGenerator_err (s : State) (l : BitVec 8) (c : BitVec 64) (n : BitVec 5) : (s.withGenerator l c n).err = s.err := rfl
@[simp] theorem State.withGenerator_msg (s : State) (l : BitVec 8) (c : BitVec 64) (n : BitVec 5) : (s.withGenerator l c n).msg = s.msg := rfl
@[simp] theorem State.withGenerator_pbuf (s : State) (l : BitVec 8) (c : BitVec 64) (n : BitVec 5) : (s.withGenerator l c n).pbuf = s.pbuf := rfl
@[simp] theorem State.withGenerator_dig (s : State) (l : BitVec 8) (c : BitVec 64) (n : BitVec 5) : (s.withGenerator l c n).dig = s.dig := rfl
@[simp] theorem State.withGenerator_host (s : State) (l : BitVec 8) (c : BitVec 64) (n : BitVec 5) : (s.withGenerator l c n).host = s.host := rfl
@[simp] theorem State.withGenerator_answer (s : State) (l : BitVec 8) (c : BitVec 64) (n : BitVec 5) : (s.withGenerator l c n).answer = s.answer := rfl

@[simp] theorem rcSeedOp_cfg (s : State) : (rcSeedOp s).cfg = s.cfg := rfl
@[simp] theorem rcSeedOp_lanes (s : State) : (rcSeedOp s).lanes = s.lanes := rfl
@[simp] theorem rcSeedOp_lfsr (s : State) : (rcSeedOp s).lfsr = lfsrSeed := rfl
@[simp] theorem rcSeedOp_rc (s : State) : (rcSeedOp s).rc = s.rc := rfl
@[simp] theorem rcSeedOp_rnd (s : State) : (rcSeedOp s).rnd = 0 := rfl
@[simp] theorem rcSeedOp_len (s : State) : (rcSeedOp s).len = s.len := rfl
@[simp] theorem rcSeedOp_plen (s : State) : (rcSeedOp s).plen = s.plen := rfl
@[simp] theorem rcSeedOp_blk (s : State) : (rcSeedOp s).blk = s.blk := rfl
@[simp] theorem rcSeedOp_pvalid (s : State) : (rcSeedOp s).pvalid = s.pvalid := rfl
@[simp] theorem rcSeedOp_dvalid (s : State) : (rcSeedOp s).dvalid = s.dvalid := rfl
@[simp] theorem rcSeedOp_errf (s : State) : (rcSeedOp s).errf = s.errf := rfl
@[simp] theorem rcSeedOp_err (s : State) : (rcSeedOp s).err = s.err := rfl
@[simp] theorem rcSeedOp_msg (s : State) : (rcSeedOp s).msg = s.msg := rfl
@[simp] theorem rcSeedOp_pbuf (s : State) : (rcSeedOp s).pbuf = s.pbuf := rfl
@[simp] theorem rcSeedOp_dig (s : State) : (rcSeedOp s).dig = s.dig := rfl
@[simp] theorem rcSeedOp_host (s : State) : (rcSeedOp s).host = s.host := rfl
@[simp] theorem rcSeedOp_answer (s : State) : (rcSeedOp s).answer = s.answer := rfl

@[simp] theorem rcNextOp_cfg (s : State) : (rcNextOp s).cfg = s.cfg := rfl
@[simp] theorem rcNextOp_lanes (s : State) : (rcNextOp s).lanes = s.lanes := rfl
@[simp] theorem rcNextOp_lfsr (s : State) : (rcNextOp s).lfsr = (rcExtract s.lfsr).2 := rfl
@[simp] theorem rcNextOp_rc (s : State) : (rcNextOp s).rc = (rcExtract s.lfsr).1 := rfl
@[simp] theorem rcNextOp_rnd (s : State) : (rcNextOp s).rnd = s.rnd + 1 := rfl
@[simp] theorem rcNextOp_len (s : State) : (rcNextOp s).len = s.len := rfl
@[simp] theorem rcNextOp_plen (s : State) : (rcNextOp s).plen = s.plen := rfl
@[simp] theorem rcNextOp_blk (s : State) : (rcNextOp s).blk = s.blk := rfl
@[simp] theorem rcNextOp_pvalid (s : State) : (rcNextOp s).pvalid = s.pvalid := rfl
@[simp] theorem rcNextOp_dvalid (s : State) : (rcNextOp s).dvalid = s.dvalid := rfl
@[simp] theorem rcNextOp_errf (s : State) : (rcNextOp s).errf = s.errf := rfl
@[simp] theorem rcNextOp_err (s : State) : (rcNextOp s).err = s.err := rfl
@[simp] theorem rcNextOp_msg (s : State) : (rcNextOp s).msg = s.msg := rfl
@[simp] theorem rcNextOp_pbuf (s : State) : (rcNextOp s).pbuf = s.pbuf := rfl
@[simp] theorem rcNextOp_dig (s : State) : (rcNextOp s).dig = s.dig := rfl
@[simp] theorem rcNextOp_host (s : State) : (rcNextOp s).host = s.host := rfl
@[simp] theorem rcNextOp_answer (s : State) : (rcNextOp s).answer = s.answer := rfl

@[simp] theorem rcLoadOp_cfg (r : Nat) (s : State) : (rcLoadOp r s).cfg = s.cfg := rfl
@[simp] theorem rcLoadOp_lanes (r : Nat) (s : State) : (rcLoadOp r s).lanes = s.lanes := rfl
@[simp] theorem rcLoadOp_lfsr (r : Nat) (s : State) : (rcLoadOp r s).lfsr = lfsrAdvance (rcBits * (r + 1)) lfsrSeed := rfl
@[simp] theorem rcLoadOp_rc (r : Nat) (s : State) : (rcLoadOp r s).rc = rcOf r := rfl
@[simp] theorem rcLoadOp_rnd (r : Nat) (s : State) : (rcLoadOp r s).rnd = BitVec.ofNat 5 (r + 1) := rfl
@[simp] theorem rcLoadOp_len (r : Nat) (s : State) : (rcLoadOp r s).len = s.len := rfl
@[simp] theorem rcLoadOp_plen (r : Nat) (s : State) : (rcLoadOp r s).plen = s.plen := rfl
@[simp] theorem rcLoadOp_blk (r : Nat) (s : State) : (rcLoadOp r s).blk = s.blk := rfl
@[simp] theorem rcLoadOp_pvalid (r : Nat) (s : State) : (rcLoadOp r s).pvalid = s.pvalid := rfl
@[simp] theorem rcLoadOp_dvalid (r : Nat) (s : State) : (rcLoadOp r s).dvalid = s.dvalid := rfl
@[simp] theorem rcLoadOp_errf (r : Nat) (s : State) : (rcLoadOp r s).errf = s.errf := rfl
@[simp] theorem rcLoadOp_err (r : Nat) (s : State) : (rcLoadOp r s).err = s.err := rfl
@[simp] theorem rcLoadOp_msg (r : Nat) (s : State) : (rcLoadOp r s).msg = s.msg := rfl
@[simp] theorem rcLoadOp_pbuf (r : Nat) (s : State) : (rcLoadOp r s).pbuf = s.pbuf := rfl
@[simp] theorem rcLoadOp_dig (r : Nat) (s : State) : (rcLoadOp r s).dig = s.dig := rfl
@[simp] theorem rcLoadOp_host (r : Nat) (s : State) : (rcLoadOp r s).host = s.host := rfl
@[simp] theorem rcLoadOp_answer (r : Nat) (s : State) : (rcLoadOp r s).answer = s.answer := rfl

@[simp] theorem State.withHost_cfg (s : State) (rest : List HostAction) : (s.withHost rest).cfg = s.cfg := rfl
@[simp] theorem State.withHost_lanes (s : State) (rest : List HostAction) : (s.withHost rest).lanes = s.lanes := rfl
@[simp] theorem State.withHost_lfsr (s : State) (rest : List HostAction) : (s.withHost rest).lfsr = s.lfsr := rfl
@[simp] theorem State.withHost_rc (s : State) (rest : List HostAction) : (s.withHost rest).rc = s.rc := rfl
@[simp] theorem State.withHost_rnd (s : State) (rest : List HostAction) : (s.withHost rest).rnd = s.rnd := rfl
@[simp] theorem State.withHost_len (s : State) (rest : List HostAction) : (s.withHost rest).len = s.len := rfl
@[simp] theorem State.withHost_plen (s : State) (rest : List HostAction) : (s.withHost rest).plen = s.plen := rfl
@[simp] theorem State.withHost_blk (s : State) (rest : List HostAction) : (s.withHost rest).blk = s.blk := rfl
@[simp] theorem State.withHost_pvalid (s : State) (rest : List HostAction) : (s.withHost rest).pvalid = s.pvalid := rfl
@[simp] theorem State.withHost_dvalid (s : State) (rest : List HostAction) : (s.withHost rest).dvalid = s.dvalid := rfl
@[simp] theorem State.withHost_errf (s : State) (rest : List HostAction) : (s.withHost rest).errf = s.errf := rfl
@[simp] theorem State.withHost_err (s : State) (rest : List HostAction) : (s.withHost rest).err = s.err := rfl
@[simp] theorem State.withHost_msg (s : State) (rest : List HostAction) : (s.withHost rest).msg = s.msg := rfl
@[simp] theorem State.withHost_pbuf (s : State) (rest : List HostAction) : (s.withHost rest).pbuf = s.pbuf := rfl
@[simp] theorem State.withHost_dig (s : State) (rest : List HostAction) : (s.withHost rest).dig = s.dig := rfl
@[simp] theorem State.withHost_host (s : State) (rest : List HostAction) : (s.withHost rest).host = rest := rfl
@[simp] theorem State.withHost_answer (s : State) (rest : List HostAction) : (s.withHost rest).answer = s.answer := rfl

@[simp] theorem State.afterReset_cfg (s : State) : s.afterReset.cfg = s.cfg := rfl
@[simp] theorem State.afterReset_lanes (s : State) : s.afterReset.lanes = Lanes.zero := rfl
@[simp] theorem State.afterReset_lfsr (s : State) : s.afterReset.lfsr = lfsrSeed := rfl
@[simp] theorem State.afterReset_rc (s : State) : s.afterReset.rc = 0 := rfl
@[simp] theorem State.afterReset_rnd (s : State) : s.afterReset.rnd = 0 := rfl
@[simp] theorem State.afterReset_len (s : State) : s.afterReset.len = 0 := rfl
@[simp] theorem State.afterReset_plen (s : State) : s.afterReset.plen = 0 := rfl
@[simp] theorem State.afterReset_blk (s : State) : s.afterReset.blk = 0 := rfl
@[simp] theorem State.afterReset_pvalid (s : State) : s.afterReset.pvalid = false := rfl
@[simp] theorem State.afterReset_dvalid (s : State) : s.afterReset.dvalid = false := rfl
@[simp] theorem State.afterReset_errf (s : State) : s.afterReset.errf = false := rfl
@[simp] theorem State.afterReset_err (s : State) : s.afterReset.err = .none := rfl
@[simp] theorem State.afterReset_msg (s : State) : s.afterReset.msg = s.msg := rfl
@[simp] theorem State.afterReset_pbuf (s : State) : s.afterReset.pbuf = [] := rfl
@[simp] theorem State.afterReset_dig (s : State) : s.afterReset.dig = [] := rfl
@[simp] theorem State.afterReset_host (s : State) : s.afterReset.host = s.host := rfl
@[simp] theorem State.afterReset_answer (s : State) : s.afterReset.answer = none := rfl

@[simp] theorem padWrites_cfg (s : State) (bs : List Byte) : (padWrites s bs).cfg = s.cfg := rfl
@[simp] theorem padWrites_lanes (s : State) (bs : List Byte) : (padWrites s bs).lanes = s.lanes := rfl
@[simp] theorem padWrites_lfsr (s : State) (bs : List Byte) : (padWrites s bs).lfsr = s.lfsr := rfl
@[simp] theorem padWrites_rc (s : State) (bs : List Byte) : (padWrites s bs).rc = s.rc := rfl
@[simp] theorem padWrites_rnd (s : State) (bs : List Byte) : (padWrites s bs).rnd = s.rnd := rfl
@[simp] theorem padWrites_len (s : State) (bs : List Byte) : (padWrites s bs).len = s.len := rfl
@[simp] theorem padWrites_plen (s : State) (bs : List Byte) : (padWrites s bs).plen = paddedLen bs.length := rfl
@[simp] theorem padWrites_blk (s : State) (bs : List Byte) : (padWrites s bs).blk = 0 := rfl
@[simp] theorem padWrites_pvalid (s : State) (bs : List Byte) : (padWrites s bs).pvalid = true := rfl
@[simp] theorem padWrites_dvalid (s : State) (bs : List Byte) : (padWrites s bs).dvalid = false := rfl
@[simp] theorem padWrites_errf (s : State) (bs : List Byte) : (padWrites s bs).errf = s.errf := rfl
@[simp] theorem padWrites_err (s : State) (bs : List Byte) : (padWrites s bs).err = s.err := rfl
@[simp] theorem padWrites_msg (s : State) (bs : List Byte) : (padWrites s bs).msg = s.msg := rfl
@[simp] theorem padWrites_pbuf (s : State) (bs : List Byte) : (padWrites s bs).pbuf = s.pbuf.store 0 (padMessage bs) := rfl
@[simp] theorem padWrites_dig (s : State) (bs : List Byte) : (padWrites s bs).dig = s.dig := rfl
@[simp] theorem padWrites_host (s : State) (bs : List Byte) : (padWrites s bs).host = s.host := rfl
@[simp] theorem padWrites_answer (s : State) (bs : List Byte) : (padWrites s bs).answer = s.answer := rfl

@[simp] theorem xorblkWrites_cfg (s : State) (block : List Byte) : (xorblkWrites s block).cfg = s.cfg := rfl
@[simp] theorem xorblkWrites_lanes (s : State) (block : List Byte) : (xorblkWrites s block).lanes = xorBlock s.lanes block := rfl
@[simp] theorem xorblkWrites_lfsr (s : State) (block : List Byte) : (xorblkWrites s block).lfsr = s.lfsr := rfl
@[simp] theorem xorblkWrites_rc (s : State) (block : List Byte) : (xorblkWrites s block).rc = s.rc := rfl
@[simp] theorem xorblkWrites_rnd (s : State) (block : List Byte) : (xorblkWrites s block).rnd = s.rnd := rfl
@[simp] theorem xorblkWrites_len (s : State) (block : List Byte) : (xorblkWrites s block).len = s.len := rfl
@[simp] theorem xorblkWrites_plen (s : State) (block : List Byte) : (xorblkWrites s block).plen = s.plen := rfl
@[simp] theorem xorblkWrites_blk (s : State) (block : List Byte) : (xorblkWrites s block).blk = s.blk + 1 := rfl
@[simp] theorem xorblkWrites_pvalid (s : State) (block : List Byte) : (xorblkWrites s block).pvalid = s.pvalid := rfl
@[simp] theorem xorblkWrites_dvalid (s : State) (block : List Byte) : (xorblkWrites s block).dvalid = s.dvalid := rfl
@[simp] theorem xorblkWrites_errf (s : State) (block : List Byte) : (xorblkWrites s block).errf = s.errf := rfl
@[simp] theorem xorblkWrites_err (s : State) (block : List Byte) : (xorblkWrites s block).err = s.err := rfl
@[simp] theorem xorblkWrites_msg (s : State) (block : List Byte) : (xorblkWrites s block).msg = s.msg := rfl
@[simp] theorem xorblkWrites_pbuf (s : State) (block : List Byte) : (xorblkWrites s block).pbuf = s.pbuf := rfl
@[simp] theorem xorblkWrites_dig (s : State) (block : List Byte) : (xorblkWrites s block).dig = s.dig := rfl
@[simp] theorem xorblkWrites_host (s : State) (block : List Byte) : (xorblkWrites s block).host = s.host := rfl
@[simp] theorem xorblkWrites_answer (s : State) (block : List Byte) : (xorblkWrites s block).answer = s.answer := rfl

@[simp] theorem squeezeWrites_cfg (s : State) : (squeezeWrites s).cfg = s.cfg := rfl
@[simp] theorem squeezeWrites_lanes (s : State) : (squeezeWrites s).lanes = s.lanes := rfl
@[simp] theorem squeezeWrites_lfsr (s : State) : (squeezeWrites s).lfsr = s.lfsr := rfl
@[simp] theorem squeezeWrites_rc (s : State) : (squeezeWrites s).rc = s.rc := rfl
@[simp] theorem squeezeWrites_rnd (s : State) : (squeezeWrites s).rnd = s.rnd := rfl
@[simp] theorem squeezeWrites_len (s : State) : (squeezeWrites s).len = s.len := rfl
@[simp] theorem squeezeWrites_plen (s : State) : (squeezeWrites s).plen = s.plen := rfl
@[simp] theorem squeezeWrites_blk (s : State) : (squeezeWrites s).blk = s.blk := rfl
@[simp] theorem squeezeWrites_pvalid (s : State) : (squeezeWrites s).pvalid = s.pvalid := rfl
@[simp] theorem squeezeWrites_dvalid (s : State) : (squeezeWrites s).dvalid = true := rfl
@[simp] theorem squeezeWrites_errf (s : State) : (squeezeWrites s).errf = s.errf := rfl
@[simp] theorem squeezeWrites_err (s : State) : (squeezeWrites s).err = s.err := rfl
@[simp] theorem squeezeWrites_msg (s : State) : (squeezeWrites s).msg = s.msg := rfl
@[simp] theorem squeezeWrites_pbuf (s : State) : (squeezeWrites s).pbuf = s.pbuf := rfl
@[simp] theorem squeezeWrites_dig (s : State) : (squeezeWrites s).dig = s.dig.store 0 (squeezeBytes s.lanes) := rfl
@[simp] theorem squeezeWrites_host (s : State) : (squeezeWrites s).host = s.host := rfl
@[simp] theorem squeezeWrites_answer (s : State) : (squeezeWrites s).answer = s.answer := rfl

end Sys2Proof.Machine
end

