-- ==== Sys2Proof/Laws/Meanings.lean ====
section
/-! SUPPORT. What each shared operation can do, said once: if it answers a next state, then one of the cases holds. -/

namespace Sys2Proof.Machine

@[simp] theorem andThen_next (s : State) (k : State → Result) : andThen (.next s) k = k s := rfl

@[simp] theorem andThen_fault (f : Fault) (k : State → Result) : andThen (.fault f) k = .fault f := rfl

@[simp] theorem andThen_refused (q : Refusal) (k : State → Result) : andThen (.refused q) k = .refused q := rfl

/-- A sequence answers a next state exactly when its first part does and the rest does from there. -/
theorem andThen_eq_next {r : Result} {k : State → Result} {t : State} :
    andThen r k = .next t ↔ ∃ u, r = .next u ∧ k u = .next t := by
  cases r <;> simp

/-- The hold of rule R117: the state as it is in the error state, the command otherwise. -/
theorem unlessError_eq_next {s t : State} {k : Result} :
    unlessError s k = .next t ↔ (s.errf = true ∧ t = s) ∨ (s.errf = false ∧ k = .next t) := by
  unfold unlessError
  cases s.errf <;> simp [eq_comm]

theorem unlessError_running {s : State} {k : Result} (h : s.errf = false) : unlessError s k = k := by
  simp [unlessError, h]

theorem unlessError_held {s : State} {k : Result} (h : s.errf = true) : unlessError s k = .next s := by
  simp [unlessError, h]

/-- What `PAD` can do (rules R95, R98): raise for a negative length, raise for a buffer that does not fit, or write the
padded message. -/
theorem padOp_eq_next {s t : State} :
    padOp s = .next t ↔
      (s.len < 0 ∧ t = s.raise .length) ∨
      (0 ≤ s.len ∧ fitsBuffer s.cfg (paddedLen s.len.toNat) = false ∧ t = s.raise .alloc) ∨
      (0 ≤ s.len ∧ fitsBuffer s.cfg (paddedLen s.len.toNat) = true ∧
        ∃ bs, s.msg.readBytes 0 s.len.toNat = some bs ∧ t = padWrites s bs) := by
  unfold padOp
  by_cases hl : s.len < 0
  · simp only [hl, if_true, Int.not_le.mpr hl, false_and, or_false, true_and, Host.Outcome.next.injEq]
    exact eq_comm
  · by_cases hf : fitsBuffer s.cfg (paddedLen s.len.toNat) = true
    · cases hm : s.msg.readBytes 0 s.len.toNat <;> simp [hl, hf, Int.not_lt.mp hl, eq_comm]
    · have hf' : fitsBuffer s.cfg (paddedLen s.len.toNat) = false := by simpa using hf
      simp only [hl, if_false, hf', Bool.false_eq_true, false_and, and_false, or_false, false_or,
        Int.not_lt.mp hl, true_and, Host.Outcome.next.injEq]
      exact eq_comm

/-- The one stop of `PAD`: a message the host has not made readable (log 5). -/
theorem padOp_refuses {s : State} {q : Refusal} (h : padOp s = .refused q) :
    q = .msgUnreadable ∧ s.msg.readBytes 0 s.len.toNat = none := by
  unfold padOp at h
  split at h
  · cases h
  · split at h
    · split at h
      · cases h
      · cases h; exact ⟨rfl, by assumption⟩
    · cases h

theorem blockLeft_iff {s : State} : blockLeft s = true ↔ s.pvalid = true ∧ s.blk < s.nblk := by
  simp [blockLeft]

theorem allAbsorbed_iff {s : State} : allAbsorbed s = true ↔ s.pvalid = true ∧ s.blk = s.nblk := by
  simp [allAbsorbed]

/-- What `XORBLK` can do (rules R100, R115): raise, or absorb the block at `136*BLK`. -/
theorem xorblkOp_eq_next {s t : State} :
    xorblkOp s = .next t ↔
      (blockLeft s = false ∧ t = s.raise .seq) ∨
      (blockLeft s = true ∧
        ∃ block, s.pbuf.readBytes (rateBytes * s.blk) rateBytes = some block ∧ t = xorblkWrites s block) := by
  unfold xorblkOp
  by_cases h : blockLeft s = true
  · cases hm : s.pbuf.readBytes (rateBytes * s.blk) rateBytes <;> simp [h, eq_comm]
  · simp [h, eq_comm]

/-- What `ABSORB` can do (rules R101, R115): raise, or `XORBLK` and then the permutation. -/
theorem absorbOp_eq_next {s t : State} :
    absorbOp s = .next t ↔
      (blockLeft s = false ∧ t = s.raise .seq) ∨
      (blockLeft s = true ∧
        ∃ block, s.pbuf.readBytes (rateBytes * s.blk) rateBytes = some block ∧
          t = keccakOp (xorblkWrites s block)) := by
  unfold absorbOp
  by_cases h : blockLeft s = true
  · simp only [h, if_true, andThen_eq_next, xorblkOp_eq_next, Bool.true_eq_false, false_and, false_or, true_and]
    constructor
    · rintro ⟨u, ⟨block, hb, rfl⟩, hk⟩; cases hk; exact ⟨block, hb, rfl⟩
    · rintro ⟨block, hb, rfl⟩; exact ⟨_, ⟨block, hb, rfl⟩, rfl⟩
  · simp [h, eq_comm]

/-- What `SQUEEZE` can do (rules R102, R115): raise, or write the digest. -/
theorem squeezeOp_eq_next {s t : State} :
    squeezeOp s = .next t ↔
      (allAbsorbed s = false ∧ t = s.raise .seq) ∨ (allAbsorbed s = true ∧ t = squeezeWrites s) := by
  unfold squeezeOp
  by_cases h : allAbsorbed s = true <;> simp [h, eq_comm]

/-- A round as its writes: the lanes, and the generator of its `RCLD` (rule R83). -/
theorem roundOp_eq (r : Nat) (s : State) :
    roundOp r s = (rcLoadOp r s).withLanes (roundFn s.lanes (rcOf r)) := rfl

@[simp] theorem rcLoadOp_withLanes (r : Nat) (s : State) (A : Lanes) :
    rcLoadOp r (s.withLanes A) = (rcLoadOp r s).withLanes A := rfl

@[simp] theorem rcLoadOp_rcLoadOp (r q : Nat) (s : State) : rcLoadOp r (rcLoadOp q s) = rcLoadOp r s := rfl

@[simp] theorem withLanes_withLanes (s : State) (A B : Lanes) : (s.withLanes A).withLanes B = s.withLanes B := rfl

/-- `n + 1` rounds as their writes: the lanes, and the generator of the last `RCLD` (rules R71, R87). -/
theorem roundsOp_succ_eq (n : Nat) (s : State) :
    roundsOp (n + 1) s = (rcLoadOp n s).withLanes (roundsFn (n + 1) s.lanes) := by
  induction n with
  | zero => rfl
  | succ n ih => rw [roundsOp, ih, roundOp_eq]; rfl

/-- The permutation as its writes (rule R87). -/
theorem keccakOp_eq (s : State) : keccakOp s = (rcLoadOp 23 s).withLanes (keccakF s.lanes) :=
  roundsOp_succ_eq 23 s

/-- A successful permutation leaves every field but the lanes and the generator. -/
theorem keccakOp_frame (s : State) :
    keccakOp s = { s with lanes := (keccakOp s).lanes, lfsr := (keccakOp s).lfsr, rc := (keccakOp s).rc,
                          rnd := (keccakOp s).rnd } := by
  rw [keccakOp_eq, rcLoadOp]
  generalize keccakF s.lanes = A, lfsrAdvance (rcBits * (23 + 1)) lfsrSeed = l, rcOf 23 = c, BitVec.ofNat 5 (23 + 1) = n
  rfl

@[simp] theorem keccakOp_lanes (s : State) : (keccakOp s).lanes = keccakF s.lanes := by simp [keccakOp_eq]

end Sys2Proof.Machine
end

