-- ==== Sys2Proof/Laws/Operands.lean ====
section
/-! SUPPORT. The index arithmetic on 0..4 as addition of `Fin 5`, the rotation as the library's, and the lengths of byte
views (rules R73, R74, R102). -/

namespace Sys2Proof.Machine

/-- `x - 1` modulo 5 is `x + 4` (rules R74, R138). -/
@[simp] theorem mod5_pred (x : Fin 5) : mod5 ((x.val : Int) - 1) = x + 4 := by
  revert x; decide

@[simp] theorem mod5_succ (x : Fin 5) : mod5 ((x.val : Int) + 1) = x + 1 := by
  revert x; decide

@[simp] theorem mod5_add_two (x : Fin 5) : mod5 ((x.val : Int) + 2) = x + 2 := by
  revert x; decide

@[simp] theorem mod5_pi_source (x y : Fin 5) : mod5 ((x.val : Int) + 3 * (y.val : Int)) = x + 3 * y := by
  revert x y; decide

@[simp] theorem mod5_pi_target (x y : Fin 5) : mod5 (2 * (x.val : Int) + 3 * (y.val : Int)) = 2 * x + 3 * y := by
  revert x y; decide

/-- The rotation of rule R73 is the library's rotation. -/
theorem rotl64_eq_rotateLeft (v : Lane) (n : Fin 64) : rotl64 v n = v.rotateLeft n.val := by
  unfold rotl64
  split
  · rename_i h; rw [h]; exact (BitVec.eq_of_getLsbD_eq fun i hi => by simp [BitVec.getLsbD_rotateLeft]; omega)
  · rw [BitVec.rotateLeft_def, Nat.mod_eq_of_lt n.isLt]

@[simp] theorem leBytes_length (v : Lane) : (leBytes v).length = 8 := by simp [leBytes]

theorem leBytes_getElem? (v : Lane) (i : Nat) (h : i < 8) : (leBytes v)[i]? = some (laneByte v i) := by
  simp [leBytes, h]

end Sys2Proof.Machine
end

