-- ==== Sys2Proof/Laws/Sponge.lean ====
section
/-! SUPPORT. The sponge: padding, the words of a block, `ABSORB` several times, `DIGEST`, and sequences of commands. -/

namespace Sys2Proof.Machine

/-- The check of `PAD` as the claims say it (rules R94, R95). -/
theorem fitsBuffer_iff (c : Config) (p : Nat) : fitsBuffer c p = true ↔ roomFor c p := by
  unfold fitsBuffer fitsLength roomFor
  cases c.lenLimit <;> cases c.lenw <;> cases c.pbufCap <;> simp
  exact and_comm

/-- With `PBUF_CAP` unbounded and `LENW - 1` bits no limit, every padded length has room (rule R113). -/
theorem fitsBuffer_unbounded {c : Config} (hc : c.pbufCap = none) (hl : c.lenLimit = false ∨ c.lenw = none) (p : Nat) :
    fitsBuffer c p = true :=
  (fitsBuffer_iff c p).mpr ⟨by simp [hc], by rcases hl with h | h <;> simp [h]⟩

/-- A padded length beyond `LENW - 1` bits has no room where R94 is taken. -/
theorem fitsBuffer_too_long {c : Config} {w p : Nat} (hl : c.lenLimit = true) (hw : c.lenw = some w)
    (hp : 2 ^ (w - 1) ≤ p) : fitsBuffer c p = false := by
  simp [fitsBuffer, fitsLength, hl, hw, Nat.not_lt.mpr hp]

theorem fitsBuffer_eq_false (c : Config) (p : Nat) : fitsBuffer c p = false ↔ ¬ roomFor c p := by
  rw [← fitsBuffer_iff]; simp

/-- The padded message is as long as rule R94 says. -/
@[simp] theorem padMessage_length (bs : List Byte) : (padMessage bs).length = paddedLen bs.length := by
  have : bs.length ≤ paddedLen bs.length := by unfold paddedLen rateBytes; split <;> omega
  simp [padMessage]; omega

/-- Below the length the padded message is the message. -/
theorem padMessage_message (bs : List Byte) (a : Nat) (h : a < bs.length) : (padMessage bs)[a]? = bs[a]? := by
  rw [padMessage, List.getElem?_append_left h]

/-- From the length on the padded message is the padding bytes (rule R97). -/
theorem padMessage_padding (bs : List Byte) (a : Nat) (h1 : bs.length ≤ a) (h2 : a < paddedLen bs.length) :
    (padMessage bs)[a]? = some (padByte bs.length a) := by
  rw [padMessage, List.getElem?_append_right h1]
  have : a - bs.length < paddedLen bs.length - bs.length := by omega
  simp only [List.getElem?_map, List.getElem?_range this, Option.map_some]
  congr 2; omega

/-- Word `k` of a block read from the buffer is the lane at its offset (rules R37, R99). -/
theorem readLane_of_block (m : Memory) (a k : Nat) (hk : k < 17) (block : List Byte) (h : m.readBytes a 136 = some block) :
    m.readLane (a + 8 * k) = some (blockWord block k) := by
  obtain ⟨hl, hg⟩ := readBytes_eq_some.mp h
  have : m.readBytes (a + 8 * k) 8 = some ((block.drop (8 * k)).take 8) := by
    refine readBytes_eq_some.mpr ⟨by simp; omega, fun j hj => ?_⟩
    rw [List.getElem?_take, if_pos hj, List.getElem?_drop, ← hg _ (by omega)]
    congr 1; omega
  rw [Memory.readLane, this, blockWord]; rfl

/-- What a block is XORed into, by linear index (rule R100). -/
theorem xorBlock_linear (A : Lanes) (block : List Byte) (k : Fin 25) :
    (xorBlock A block).linear k = if k.val < 17 then A.linear k ^^^ blockWord block k.val else A.linear k := by
  have h := linearIndex_divMod k
  rw [Lanes.linear, xorBlock, lane_build, h]; rfl

/-- `n` times `ABSORB` with `n` blocks left: none raises, and only the lanes, the generator and `BLK` change. -/
theorem absorbMany_next {n : Nat} {s t : State} (h : absorbMany n s = .next t) (hp : s.pvalid = true)
    (hn : s.blk + n ≤ s.nblk) :
    t = { s with lanes := t.lanes, lfsr := t.lfsr, rc := t.rc, rnd := t.rnd, blk := s.blk + n } := by
  induction n generalizing s with
  | zero => cases h; rfl
  | succ n ih =>
    obtain ⟨u, hu, h⟩ := andThen_eq_next.mp h
    rcases absorbOp_eq_next.mp hu with ⟨hb, rfl⟩ | ⟨hb, block, _, rfl⟩
    · have := blockLeft_iff.mpr ⟨hp, (by omega : s.blk < s.nblk)⟩
      simp [hb] at this
    · have hf := keccakOp_frame (xorblkWrites s block)
      generalize keccakOp (xorblkWrites s block) = u at h hf
      have := ih h (by rw [hf]; exact hp) (by rw [hf]; simp [State.nblk] at hn ⊢; omega)
      rw [this, hf]
      simp [xorblkWrites]; omega

/-- `n` times `ABSORB` with `n` blocks left, all of whose bytes `PBUF` holds, answers a next state. -/
theorem absorbMany_completes {n : Nat} {s : State} (hp : s.pvalid = true) (hn : s.blk + n ≤ s.nblk)
    (hb : ∀ a, a < s.plen → (s.pbuf.read a).isSome = true) : ∃ t, absorbMany n s = .next t := by
  induction n generalizing s with
  | zero => exact ⟨s, rfl⟩
  | succ n ih =>
    have hl := blockLeft_iff.mpr ⟨hp, (by omega : s.blk < s.nblk)⟩
    obtain ⟨block, hblk⟩ := Option.isSome_iff_exists.mp ((readBytes_isSome (m := s.pbuf) (a := rateBytes * s.blk)
      (n := rateBytes)).mpr fun j hj => hb _ (by
        have : s.blk + 1 ≤ s.plen / rateBytes := by unfold State.nblk at hn; omega
        have := (Nat.le_div_iff_mul_le (by decide : 0 < rateBytes)).mp this
        unfold rateBytes at *; omega))
    have h1 := absorbOp_eq_next.mpr (.inr ⟨hl, block, hblk, rfl⟩)
    have hf := keccakOp_frame (xorblkWrites s block)
    generalize keccakOp (xorblkWrites s block) = u at h1 hf
    obtain ⟨t, ht⟩ := ih (s := u) (by rw [hf]; exact hp) (by rw [hf]; simp [State.nblk] at hn ⊢; omega)
      (by rw [hf]; exact hb)
    exact ⟨t, by rw [absorbMany, h1, andThen_next, ht]⟩

/-- What `DIGEST` can do (rule R103): raise from the state of its `INIT`, or absorb every block and squeeze. -/
theorem digestOp_eq_next {s t : State} (h : digestOp s = .next t) :
    (s.len < 0 ∧ t = s.initialise.raise .length) ∨
    (0 ≤ s.len ∧ fitsBuffer s.cfg (paddedLen s.len.toNat) = false ∧ t = s.initialise.raise .alloc) ∨
    (0 ≤ s.len ∧ fitsBuffer s.cfg (paddedLen s.len.toNat) = true ∧
      ∃ bs u, s.msg.readBytes 0 s.len.toNat = some bs ∧
        absorbMany (padWrites s.initialise bs).nblk (padWrites s.initialise bs) = .next u ∧
        u = { (padWrites s.initialise bs) with
              lanes := u.lanes, lfsr := u.lfsr, rc := u.rc, rnd := u.rnd, blk := (padWrites s.initialise bs).nblk } ∧
        t = squeezeWrites u) := by
  obtain ⟨u, hu, h⟩ := andThen_eq_next.mp (show andThen _ _ = _ from h)
  rcases padOp_eq_next.mp hu with ⟨h1, rfl⟩ | ⟨h1, h2, rfl⟩ | ⟨h1, h2, bs, h3, rfl⟩
  · left; simp at h h1; exact ⟨h1, h.symm⟩
  · right; left; simp at h h1 h2; exact ⟨h1, h2, h.symm⟩
  · refine .inr (.inr ⟨h1, h2, bs, ?_⟩)
    rw [if_neg (by simp)] at h
    obtain ⟨u, hu, hs⟩ := andThen_eq_next.mp h
    rw [padWrites_blk, Nat.sub_zero] at hu
    have hf := absorbMany_next hu (by simp) (by simp)
    rw [padWrites_blk, Nat.zero_add] at hf
    refine ⟨u, h3, hu, hf, ?_⟩
    rcases squeezeOp_eq_next.mp hs with ⟨hx, _⟩ | ⟨_, rfl⟩
    · have : allAbsorbed u = true := allAbsorbed_iff.mpr (by rw [hf]; exact ⟨rfl, rfl⟩)
      simp [this] at hx
    · rfl

/-- Two sequences of commands, one after the other. -/
theorem execAll_append (a b : List Instr) (s : State) : execAll (a ++ b) s = andThen (execAll a s) (execAll b) := by
  induction a generalizing s with
  | nil => rfl
  | cons i a ih =>
    simp only [List.cons_append, execAll]
    cases exec i s <;> simp [ih]

end Sys2Proof.Machine
end

