-- ==== Sys2Proof/Laws/Invariant.lean ====
section
/-! SUPPORT. Each shared operation keeps the invariant of `Safety.lean`. -/

namespace Sys2Proof.Machine

/-- The error entry keeps the invariant (rule R112). -/
theorem raise_inv {s : State} (h : s.Inv) {e : ErrCode} (he : e ≠ .none) : (s.raise e).Inv where
  cfgWf := h.cfgWf
  msgWf := h.msgWf
  pbufWf := h.pbufWf
  digWf := h.digWf
  digRange := h.digRange
  rndLegal := h.rndLegal
  lfsrRun := h.lfsrRun
  rcLast := h.rcLast
  lenRange := h.lenRange
  plenAligned := h.plenAligned
  plenFits := h.plenFits
  blkBound := h.blkBound
  errNone := by simp [he]
  errFlags := by simp
  dvalidDone := by simp
  padHeld := by simp
  digHeld := by simp

/-- The writes of `INIT` keep the invariant (rule R93). -/
theorem initialise_inv {s : State} (h : s.Inv) : s.initialise.Inv where
  cfgWf := h.cfgWf
  msgWf := h.msgWf
  pbufWf := h.pbufWf
  digWf := h.digWf
  digRange := h.digRange
  rndLegal := by simp
  lfsrRun := rfl
  rcLast := by simp
  lenRange := h.lenRange
  plenAligned := rfl
  plenFits := (fitsBuffer_iff _ _).mpr ⟨fun _ _ => Nat.zero_le _, fun _ _ _ => Nat.two_pow_pos _⟩
  blkBound := Nat.zero_le _
  errNone := by simp
  errFlags := by simp
  dvalidDone := by simp
  padHeld := by simp
  digHeld := by simp

/-- New lanes keep the invariant, which does not speak of them. -/
theorem withLanes_inv {s : State} (h : s.Inv) (A : Lanes) : (s.withLanes A).Inv := { h with }

/-- The generator as a run of the LFSR keeps the invariant (rules R19, R69, R70). -/
theorem withGenerator_inv {s : State} (h : s.Inv) (c : Lane) (n : RoundIndex) (hn : n.toNat ≤ numRounds)
    (hc : 0 < n.toNat → c = rcOf (n.toNat - 1)) :
    (s.withGenerator (lfsrAdvance (rcBits * n.toNat) lfsrSeed) c n).Inv :=
  { h with rndLegal := hn, lfsrRun := rfl, rcLast := hc }

theorem rcLoadOp_inv {s : State} (h : s.Inv) {r : Nat} (hr : r < numRounds) : (rcLoadOp r s).Inv := by
  have e : (BitVec.ofNat 5 (r + 1)).toNat = r + 1 := by
    rw [BitVec.toNat_ofNat]; unfold numRounds at hr; omega
  have := withGenerator_inv h (rcOf r) (BitVec.ofNat 5 (r + 1)) (by rw [e]; exact hr) (by rw [e]; simp)
  rwa [e] at this

theorem rcSeedOp_inv {s : State} (h : s.Inv) : (rcSeedOp s).Inv :=
  withGenerator_inv h s.rc 0 (Nat.zero_le _) (by simp)

theorem rcNextOp_inv {s : State} (h : s.Inv) (hr : s.rnd.toNat < numRounds) : (rcNextOp s).Inv := by
  have e : (s.rnd + 1).toNat = s.rnd.toNat + 1 := by
    have : s.rnd.toNat < 24 := hr
    rw [BitVec.toNat_add, show BitVec.toNat (1 : RoundIndex) = 1 from rfl]; omega
  have := withGenerator_inv h (rcExtract s.lfsr).1 (s.rnd + 1) (by rw [e]; exact hr)
    (fun _ => by rw [e, Nat.add_sub_cancel, rcOf_eq_extract, ← h.lfsrRun])
  rw [e, lfsrAdvance_succ_round, ← h.lfsrRun] at this
  exact this

theorem keccakOp_inv {s : State} (h : s.Inv) : (keccakOp s).Inv := by
  rw [keccakOp_eq]
  exact withLanes_inv (rcLoadOp_inv h (by decide)) _

/-- The writes of `PAD` keep the invariant on a length that fits (rules R94, R98). -/
theorem padWrites_inv {s : State} (h : s.Inv) (he : s.errf = false) {bs : List Byte}
    (hf : fitsBuffer s.cfg (paddedLen bs.length) = true) : (padWrites s bs).Inv where
  cfgWf := h.cfgWf
  msgWf := h.msgWf
  pbufWf := store_wf h.pbufWf 0 _
  digWf := h.digWf
  digRange := h.digRange
  rndLegal := h.rndLegal
  lfsrRun := h.lfsrRun
  rcLast := h.rcLast
  lenRange := h.lenRange
  plenAligned := by
    rw [padWrites_plen]; unfold paddedLen rateBytes; split <;> omega
  plenFits := hf
  blkBound := Nat.zero_le _
  errNone := h.errNone
  errFlags := by simp [he]
  dvalidDone := by simp
  padHeld := by
    intro _ a ha
    rw [padWrites_plen, ← padMessage_length] at ha
    rw [padWrites_pbuf, read_store, if_pos (by omega)]
    simpa using ha
  digHeld := by simp

/-- The writes of `XORBLK` keep the invariant while a block is left (rule R100). -/
theorem xorblkWrites_inv {s : State} (h : s.Inv) (hb : s.blk < s.nblk) (block : List Byte) :
    (xorblkWrites s block).Inv :=
  { h with
    blkBound := hb
    dvalidDone := fun hd => absurd (h.dvalidDone hd).2 (Nat.ne_of_lt hb) }

theorem absorbMany_inv {n : Nat} {s t : State} (h : s.Inv) (ht : absorbMany n s = .next t) : t.Inv := by
  induction n generalizing s with
  | zero => cases ht; exact h
  | succ n ih =>
    obtain ⟨u, hu, ht⟩ := andThen_eq_next.mp ht
    rcases absorbOp_eq_next.mp hu with ⟨_, rfl⟩ | ⟨hb, block, _, rfl⟩
    · exact ih (raise_inv h (by decide)) ht
    · exact ih (keccakOp_inv (xorblkWrites_inv h (blockLeft_iff.mp hb).2 block)) ht

/-- The writes of `SQUEEZE` keep the invariant (rule R102). -/
theorem squeezeWrites_inv {s : State} (h : s.Inv) (hp : s.pvalid = true) (hb : s.blk = s.nblk) :
    (squeezeWrites s).Inv := by
  have hl : (squeezeBytes s.lanes).length = digestBytes := by simp [squeezeBytes, digestBytes]
  have he : s.errf = false := by
    cases h1 : s.errf with
    | false => rfl
    | true => have := (h.errFlags h1).1; simp [hp] at this
  exact { h with
    digWf := store_wf h.digWf 0 _
    digRange := fun c hc => by
      rcases mem_store hc with h1 | ⟨_, h2⟩
      · exact h.digRange c h1
      · rwa [hl, Nat.zero_add] at h2
    errFlags := by simp [he]
    dvalidDone := fun _ => ⟨hp, hb⟩
    digHeld := fun _ a ha => by
      rw [squeezeWrites_dig, read_store, if_pos (by omega)]
      simp [hl, ha] }

/-- What `LEN` holds after a write is in its range (rule R21). -/
theorem lenWritten_inRange (c : Config) (v : Int) (hc : c.wf) : lenInRange c (lenWritten c v) := by
  unfold lenInRange lenWritten
  cases h : c.lenw with
  | none => trivial
  | some w =>
    have hw : w ≠ 0 := by rintro rfl; exact hc h
    simp only
    constructor
    · have := BitVec.le_toInt (BitVec.ofInt w v); simpa using this
    · have := BitVec.toInt_lt (x := BitVec.ofInt w v); simpa using this

end Sys2Proof.Machine
end

