-- ==== Sys2Proof/Laws/PerInstr.lean ====
section
/-! SUPPORT. The family `TableRow`: each command's word has the fixed bits of its row of the opcode table. -/

namespace Sys2Proof

/-- The column "mask" of a command's row in the opcode table: all bits in format Z, all but `r` in format R. -/
def tableMask (i : Instr) : CmdWord :=
  match i with
  | .rcseed => 0xFFFF
  | .rcnext => 0xFFFF
  | .rcld _ => 0xFFE0
  | .theta => 0xFFFF
  | .rho => 0xFFFF
  | .pi => 0xFFFF
  | .chi => 0xFFFF
  | .iota => 0xFFFF
  | .round _ => 0xFFE0
  | .keccakf => 0xFFFF
  | .init => 0xFFFF
  | .pad => 0xFFFF
  | .xorblk => 0xFFFF
  | .absorb => 0xFFFF
  | .squeeze => 0xFFFF
  | .digest => 0xFFFF

/-- The column "match" of a command's row in the opcode table. -/
def tableMatch (i : Instr) : CmdWord :=
  match i with
  | .rcseed => 0x1000
  | .rcnext => 0x1200
  | .rcld _ => 0x1300
  | .theta => 0x2000
  | .rho => 0x2100
  | .pi => 0x2200
  | .chi => 0x2300
  | .iota => 0x2400
  | .round _ => 0x2500
  | .keccakf => 0x3000
  | .init => 0x4000
  | .pad => 0x4100
  | .xorblk => 0x4200
  | .absorb => 0x4300
  | .squeeze => 0x4400
  | .digest => 0x4F00

namespace Laws.TableRow

/-- The word of a command matches its row of the opcode table. -/
def Statement (i : Instr) : Prop := encode i &&& tableMask i = tableMatch i

theorem rcseed : Statement .rcseed := by unfold Statement; decide

theorem rcnext : Statement .rcnext := by unfold Statement; decide

theorem rcld (r : RoundIndex) : Statement (.rcld r) := by unfold Statement; revert r; decide

theorem theta : Statement .theta := by unfold Statement; decide

theorem rho : Statement .rho := by unfold Statement; decide

theorem pi : Statement .pi := by unfold Statement; decide

theorem chi : Statement .chi := by unfold Statement; decide

theorem iota : Statement .iota := by unfold Statement; decide

theorem round (r : RoundIndex) : Statement (.round r) := by unfold Statement; revert r; decide

theorem keccakf : Statement .keccakf := by unfold Statement; decide

theorem init : Statement .init := by unfold Statement; decide

theorem pad : Statement .pad := by unfold Statement; decide

theorem xorblk : Statement .xorblk := by unfold Statement; decide

theorem absorb : Statement .absorb := by unfold Statement; decide

theorem squeeze : Statement .squeeze := by unfold Statement; decide

theorem digest : Statement .digest := by unfold Statement; decide

end Laws.TableRow

end Sys2Proof
end

