-- ==== Sys2Proof/Tests/Slice0.lean ====
section
/-! SUPPORT. Tests of one command on a small state, against the vectors of `95_test_vectors.md`, and for each statement
with hypotheses a concrete state that meets them. -/

namespace Sys2Proof.Machine.Slice0

/-! Small states -/

/-- Reset with a message placed and its length written. -/
def withMsg (bs : List Byte) : State := { State.reset with len := bs.length, msg := cellsFrom 0 bs }

/-- The ten bytes of `debug test` (V1). -/
def debugTest : List Byte := [0x64, 0x65, 0x62, 0x75, 0x67, 0x20, 0x74, 0x65, 0x73, 0x74]

/-- The matrix with `L[k]` from a list. -/
def lanesOf (ls : List Lane) : Lanes := Lanes.build fun x y => ls.getD (linearIndex x y) 0

/-- `L[0]` to `L[24]`. -/
def linears (A : Lanes) : List Lane := (List.finRange 25).map A.linear

/-- `L[k] = k + 1`, the start of V13, V15 and V16. -/
def counting : Lanes := Lanes.build fun x y => BitVec.ofNat 64 (linearIndex x y + 1)

/-- A state with other lanes. -/
def withLanesOnly (A : Lanes) : State := { State.reset with lanes := A }

/-- A state in mid-computation: lanes, generator and one constant left. -/
def busy : State := { State.reset with lanes := counting, lfsr := 0x44, rc := 0x80000001, rnd := 23 }

/-- The same after the last constant. -/
def spent : State := { busy with rnd := 24 }

/-- The error state. -/
def held : State := busy.raise .length

/-- After `INIT` and `PAD` on `debug test`. -/
def padded : State := padWrites (withMsg debugTest) debugTest

/-- After `INIT` and `PAD` on the empty message: nothing to absorb. -/
def paddedEmpty : State := padWrites (withMsg []) []

/-- The state `s` with these actions of the host to come. -/
def doing (s : State) (as : List HostAction) : State := { s with host := as }

/-- A field of the next state of a result. -/
def get {α : Type} (r : Result) (f : State → α) : Option α := (resultState r).map f

/-! Well-formedness -/

theorem test_rcld_24_ill_formed : (Instr.rcld 24).wellFormed = false := by decide

theorem test_rcld_23_well_formed : (Instr.rcld 23).wellFormed = true := by decide

theorem test_round_31_ill_formed : (Instr.round 31).wellFormed = false := by decide

theorem test_round_0_well_formed : (Instr.round 0).wellFormed = true := by decide

/-! Decoding: the words of V44, bit by bit -/

theorem test_decode_rcseed : decode 0b00010000_000_00000 = .command .rcseed := by decide

theorem test_decode_rcnext : decode 0b00010010_000_00000 = .command .rcnext := by decide

theorem test_decode_rcld_0 : decode 0b00010011_000_00000 = .command (.rcld 0) := by decide

theorem test_decode_rcld_23 : decode 0b00010011_000_10111 = .command (.rcld 23) := by decide

theorem test_decode_theta : decode 0b00100000_000_00000 = .command .theta := by decide

theorem test_decode_rho : decode 0b00100001_000_00000 = .command .rho := by decide

theorem test_decode_pi : decode 0b00100010_000_00000 = .command .pi := by decide

theorem test_decode_chi : decode 0b00100011_000_00000 = .command .chi := by decide

theorem test_decode_iota : decode 0b00100100_000_00000 = .command .iota := by decide

theorem test_decode_round_7 : decode 0b00100101_000_00111 = .command (.round 7) := by decide

theorem test_decode_round_23 : decode 0b00100101_000_10111 = .command (.round 23) := by decide

theorem test_decode_keccakf : decode 0b00110000_000_00000 = .command .keccakf := by decide

theorem test_decode_init : decode 0b01000000_000_00000 = .command .init := by decide

theorem test_decode_pad : decode 0b01000001_000_00000 = .command .pad := by decide

theorem test_decode_xorblk : decode 0b01000010_000_00000 = .command .xorblk := by decide

theorem test_decode_absorb : decode 0b01000011_000_00000 = .command .absorb := by decide

theorem test_decode_squeeze : decode 0b01000100_000_00000 = .command .squeeze := by decide

theorem test_decode_digest : decode 0b01001111_000_00000 = .command .digest := by decide

/-- V41, the words with no opcode. -/
theorem test_decode_unassigned :
    ([0x0000, 0x1100, 0x4500, 0x4E00, 0x5000, 0xFFFF] : List CmdWord).all
      (fun w => decode w == .illegal .unassignedOpcode) = true := by decide

/-- V41, the words with a nonzero must-be-zero field. -/
theorem test_decode_must_be_zero :
    ([0x1001, 0x1320, 0x2580, 0x2401, 0x3001, 0x4F01] : List CmdWord).all
      (fun w => decode w == .illegal .mustBeZero) = true := by decide

/-- V41, the round indices above 23. -/
theorem test_decode_round_index :
    ([0x1318, 0x131F, 0x2518] : List CmdWord).all (fun w => decode w == .illegal .roundIndex) = true := by decide

/-- A word of the table, as the host numbers it. -/
theorem test_decode_table_word : decodeTableWord 16 0x2507 = some (.round 7) := by decide

/-! Generator -/

/-- V7, the corner cases of the step. -/
theorem test_lfsr_step_corners :
    lfsrStep 0x80 = (0x71, false) ∧ lfsrStep 0xFF = (0x8F, true) ∧ lfsrStep 0x00 = (0x00, false) := by decide

/-- Rule R68. -/
theorem test_rcseed : get (exec .rcseed busy) (fun t => (t.lfsr, t.rc, t.rnd)) = some (0x01, 0x80000001, 0) := by decide

/-- V8, the last row. -/
theorem test_rcnext_last :
    get (exec .rcnext busy) (fun t => (t.rc, t.lfsr, t.rnd)) = some (0x8000000080008008, 0x8E, 24) := by decide +kernel

/-- V10: no constant left. -/
theorem test_rcnext_spent :
    get (exec .rcnext spent) (fun t => (t.errf, t.err, t.rnd)) = some (true, .seq, 24) := by decide

/-- V9: independent of the state before. -/
theorem test_rcld_2 :
    get (exec (.rcld 2) spent) (fun t => (t.rc, t.lfsr, t.rnd)) = some (0x800000000000808A, 0x1A, 3) := by decide +kernel

/-- V9. -/
theorem test_rcld_22 :
    get (exec (.rcld 22) busy) (fun t => (t.rc, t.lfsr, t.rnd)) = some (0x0000000080000001, 0x44, 23) := by
  decide +kernel

/-! Steps and the round -/

/-- V11. -/
theorem test_rotl64 :
    rotl64 0x8000000000000001 0 = 0x8000000000000001 ∧ rotl64 0x8000000000000001 63 = 0xC000000000000000 ∧
    rotl64 0x0123456789ABCDEF 36 = 0x9ABCDEF012345678 := by decide

/-- Rule R74. -/
theorem test_mod5 : mod5 (-1) = 4 ∧ mod5 5 = 0 ∧ mod5 20 = 0 := by decide

/-- The example of rule R76. -/
theorem test_theta :
    get (exec .theta (withLanesOnly (lanesOf [1]))) (fun t => linears t.lanes) =
      some [1, 1, 0, 0, 2, 0, 1, 0, 0, 2, 0, 1, 0, 0, 2, 0, 1, 0, 0, 2, 0, 1, 0, 0, 2] := by decide +kernel

/-- V12. -/
theorem test_rho :
    get (exec .rho (withLanesOnly (lanesOf (List.replicate 25 0x8000000000000001))))
        (fun t => (linears t.lanes).take 10) =
      some [0x8000000000000001, 0x0000000000000003, 0x6000000000000000, 0x0000000018000000, 0x000000000C000000,
            0x0000001800000000, 0x0000180000000000, 0x0000000000000060, 0x00C0000000000000, 0x0000000000180000] := by
  decide +kernel

/-- V12, the walk of rule R78 at `t` = 0, 10 and 23. -/
theorem test_rho_walk :
    (rhoTriangular 0, rhoTriangular 10, rhoTriangular 23) = (1, 2, 44) ∧ rhoWalk 10 = (1, 4) ∧ rhoWalk 23 = (1, 1) := by
  decide

/-- The sources of rule R80, one more than each since `L[k] = k + 1`. -/
theorem test_pi :
    get (exec .pi (withLanesOnly counting)) (fun t => linears t.lanes) =
      some [1, 7, 13, 19, 25, 4, 10, 11, 17, 23, 2, 8, 14, 20, 21, 5, 6, 12, 18, 24, 3, 9, 15, 16, 22] := by
  decide +kernel

/-- V16. -/
theorem test_chi :
    get (exec .chi (withLanesOnly counting)) (fun t => linears t.lanes) =
      some [0x0, 0x6, 0x2, 0x4, 0x7, 0xE, 0x6, 0xA, 0xD, 0xB, 0xA, 0xE, 0xC, 0xE, 0xB, 0x12, 0x10, 0x16, 0x13, 0x15,
            0x14, 0x1E, 0x16, 0x1C, 0x1B] := by decide +kernel

/-- V17 (c): the complement is on all 64 bits. -/
theorem test_chi_complement :
    get (exec .chi (withLanesOnly (lanesOf [0xFFFFFFFFFFFFFFFF, 0, 0xFFFFFFFFFFFFFFFF]))) (fun t => (linears t.lanes).take 6) =
      some [0, 0, 0xFFFFFFFFFFFFFFFF, 0xFFFFFFFFFFFFFFFF, 0, 0] := by decide +kernel

/-- V18 (d). -/
theorem test_iota :
    get (exec .iota { withLanesOnly (lanesOf [0xFFFFFFFFFFFFFFFF]) with rc := 0x8000000080008008 })
        (fun t => (linears t.lanes).take 2) = some [0x7FFFFFFF7FFF7FF7, 0] := by decide +kernel

/-- V19: `ROUND 1` after `ROUND 0`. -/
theorem test_round_1 :
    get (exec (.round 1) (withLanesOnly (lanesOf [1]))) (fun t => ((linears t.lanes).take 10, t.rc, t.lfsr, t.rnd)) =
      some ([0x8083, 0x100000000000, 0x8000, 0x1, 0x100000008000, 0, 0x200000200000, 0, 0x200000000000, 0x200000],
            0x8082, 0xD8, 2) := by decide +kernel

/-- V19: `ROUND 23` on zero lanes. -/
theorem test_round_23 :
    get (exec (.round 23) State.reset) (fun t => (linears t.lanes).take 2) = some [0x8000000080008008, 0] := by
  decide +kernel

/-- V20: the permutation of the zero state. -/
theorem test_keccakf :
    get (exec .keccakf State.reset) (fun t => ((linears t.lanes).take 4, t.lanes.linear 24, t.lfsr, t.rnd)) =
      some ([0xF1258F7940E1DDE7, 0x84D5CCF933C0478A, 0xD598261EA65AA9EE, 0xBD1547306F80494D], 0xEAF1FF7B5CECA249,
            0x8E, 24) := by decide +kernel

/-! Sponge -/

/-- Rule R93, from the error state. -/
theorem test_init :
    get (exec .init held) (fun t => (t.errf, t.err, t.lanes.linear 7, t.lfsr)) = some (false, .none, 0, 0x01) := by decide

/-- V22. -/
theorem test_padded_lengths :
    [0, 1, 135, 136, 137, 271, 272, 273].map (fun n => (paddedLen n, blockCount n)) =
      [(0, 0), (136, 1), (136, 1), (136, 1), (272, 2), (272, 2), (272, 2), (408, 3)] := by decide

/-- V23 (a). -/
theorem test_pad :
    get (exec .pad (withMsg debugTest)) (fun t =>
        (t.plen, t.pvalid, t.pbuf.readBytes 0 12, t.pbuf.readBytes 134 2)) =
      some (136, true, some (debugTest ++ [0x06, 0x00]), some [0x00, 0x80]) := by decide +kernel

/-- V23 (c): the one pad byte. -/
theorem test_pad_join :
    get (exec .pad (withMsg (List.replicate 135 0x61))) (fun t => (t.plen, t.pbuf.readBytes 134 2)) =
      some (136, some [0x61, 0x86]) := by decide +kernel

/-- V24. -/
theorem test_xorblk :
    get (exec .xorblk padded) (fun t => (t.blk, linears t.lanes)) =
      some (1, [0x6574206775626564, 0x0000000000067473] ++ List.replicate 14 0 ++ [0x8000000000000000] ++
        List.replicate 8 0) := by decide +kernel

/-- V25. -/
theorem test_absorb :
    get (exec .absorb padded) (fun t => (t.blk, t.rnd, t.lanes.linear 0, t.lanes.linear 24)) =
      some (1, 24, 0x827E6B781EE29274, 0x197F5C73E0701400) := by decide +kernel

/-- V42, the sixth row: no block left. -/
theorem test_absorb_none_left :
    get (exec .absorb paddedEmpty) (fun t => (t.errf, t.err, t.pvalid)) = some (true, .seq, false) := by decide +kernel

/-- V26: the byte order of the digest. -/
theorem test_squeeze :
    get (exec .squeeze { paddedEmpty with lanes := lanesOf [0x827E6B781EE29274] })
        (fun t => (t.dig.readBytes 0 9, t.dvalid)) =
      some (some [0x74, 0x92, 0xE2, 0x1E, 0x78, 0x6B, 0x7E, 0x82, 0x00], true) := by decide +kernel

/-- V1: the known answer of the source. -/
theorem test_digest_known_answer :
    get (exec .digest (withMsg debugTest)) (fun t => (t.status, t.dig.readBytes 0 32)) =
      some (0x03, some
        [0x74, 0x92, 0xE2, 0x1E, 0x78, 0x6B, 0x7E, 0x82, 0xDB, 0x14, 0xDD, 0xF7, 0xB6, 0x09, 0xF3, 0x58,
         0x77, 0x7C, 0xBC, 0x52, 0x72, 0x44, 0x9C, 0x95, 0xD1, 0xE7, 0x5E, 0x61, 0x49, 0x33, 0x78, 0x8C]) := by
  decide +kernel

/-- V39: a negative length; the `INIT` inside has zeroed the lanes. -/
theorem test_digest_negative_length :
    get (exec .digest { busy with len := -1 }) (fun t => (t.status, t.err, t.len, t.lanes.linear 3)) =
      some (0x04, .length, -1, 0) := by decide

/-! Errors and the host -/

/-- V40: capacity 136, and the length is checked first. -/
theorem test_capacity :
    fitsBuffer ⟨some 136, some 64, true⟩ (paddedLen 136) = true ∧ fitsBuffer ⟨some 136, some 64, true⟩ (paddedLen 137) = false ∧
    fitsBuffer ⟨some 0, some 64, true⟩ (paddedLen 0) = true ∧
    get (exec .pad { State.reset with cfg := ⟨some 0, some 64, true⟩, len := -1 }) (fun t => t.err) = some .length := by
  decide +kernel

/-- Rules R94 and R113 on the largest `LEN` of 64 bits with `PBUF_CAP` unbounded: no room by the one, room by the other; and
room after reset. -/
theorem test_length_limit :
    fitsBuffer ⟨none, some 64, true⟩ (paddedLen (2 ^ 63 - 1)) = false ∧
    fitsBuffer ⟨none, some 64, false⟩ (paddedLen (2 ^ 63 - 1)) = true ∧
    fitsBuffer State.reset.cfg (paddedLen (2 ^ 63 - 1)) = true := by decide +kernel

/-- V41: an illegal word, and V43 step 3. -/
theorem test_illegal_word :
    get (step (doing busy [.command 0x1318])) (fun t => (t.errf, t.err, t.rnd)) = some (true, .cmd, 23) ∧
    get (step (doing held [.command 0xFFFF])) (fun t => (t.errf, t.err, t.rnd)) = some (true, .length, 23) := by decide

/-- A step runs the word placed by `withFetchWord` first after reset. -/
theorem test_step_runs_placed_word :
    get (step (State.reset.withFetchWord 16 0x1302)) (fun t => (t.rc, t.host)) = some (0x800000000000808A, []) := by
  decide +kernel

/-- P5: `STATUS` and `ERR` as the host reads them. -/
theorem test_host_reads_registers :
    get (step (doing held [.readReg 0])) (fun t => t.answer) = some (some (.reg 0 (.bits8 0x04))) ∧
    get (step (doing held [.readReg 1])) (fun t => t.answer) = some (some (.reg 1 (.bits8 0x02))) := by decide

/-- V43 step 8: a host write is no command and happens in the error state. -/
theorem test_host_writes_in_error_state :
    get (step (doing held [.writeLen 10])) (fun t => (t.len, t.errf)) = some (10, true) ∧
    get (step (doing held [.writeMsg 0 debugTest])) (fun t => (t.msg.read 9, t.errf)) = some (some 0x74, true) := by
  decide

/-! Witnesses: for each statement with hypotheses, states and operands that meet them together -/

theorem witness_DecodeOfEncode : (Instr.rcld 0).wellFormed = true ∧ (Instr.round 23).wellFormed = true := by decide

theorem witness_EncodeOfDecode : decode 0x1317 = .command (.rcld 23) ∧ decode 0x4F00 = .command .digest := by decide

theorem illegal_unassigned : illegalFields 0x0000 ∧ illegalFields 0xFFFF := by unfold illegalFields; decide

theorem illegal_low_byte : illegalFields 0x1001 ∧ illegalFields 0x4F80 := by unfold illegalFields; decide

theorem illegal_round : illegalFields 0x1320 ∧ illegalFields 0x2518 ∧ illegalFields 0x251F := by
  unfold illegalFields; decide

theorem witness_DecodingByFields :
    ((0x4F, Instr.digest) ∈ formatZ ∧ (0x4F00 : CmdWord).toNat / 256 = 0x4F ∧ (0x4F00 : CmdWord).toNat % 256 = 0) ∧
    ((0x1317 : CmdWord).toNat / 256 = 0x13 ∧ (0x1317 : CmdWord).toNat / 32 % 8 = 0 ∧ (0x1317 : CmdWord).toNat % 32 ≤ 23) ∧
    illegalFields 0x0000 ∧ illegalFields 0x1001 ∧ illegalFields 0x2518 :=
  ⟨by decide, by decide, illegal_unassigned.1, illegal_low_byte.1, illegal_round.2.1⟩

theorem witness_StepRunsDecodedCommand :
    (doing busy [.command 0x2507, .reset]).host = .command 0x2507 :: [.reset] ∧ decode 0x2507 = .command (.round 7) ∧
    (Instr.round 23).wellFormed = true := by decide

theorem witness_IllegalWordRaisesErrCmd :
    (doing busy [.command 0x0000]).host = .command 0x0000 :: [] ∧ illegalFields 0x0000 ∧
    (doing busy [.command 0x0000]).errf = false ∧ (doing held [.command 0x0000]).errf = true :=
  ⟨rfl, illegal_unassigned.1, rfl, rfl⟩

theorem witness_ErrorStateHolds :
    held.errf = true ∧ Instr.keccakf ≠ .init ∧ Instr.keccakf ≠ .digest ∧
    (doing held [.command 0x2518]).host = .command 0x2518 :: [] ∧ illegalFields 0x2518 :=
  ⟨rfl, by decide, by decide, rfl, illegal_round.2.1⟩

theorem witness_ErrorsArePrecise :
    (spent.errf = false ∧ exec .rcnext spent = .next (spent.raise .seq) ∧ (spent.raise .seq).errf = true) ∧
    (∃ t, exec .digest { busy with len := -1 } = .next t ∧ t.errf = true) ∧
    ((doing busy [.command 0x0000]).host = .command 0x0000 :: [] ∧ illegalFields 0x0000) :=
  ⟨⟨rfl, rfl, rfl⟩, ⟨_, rfl, rfl⟩, rfl, illegal_unassigned.1⟩

theorem witness_ErrorCodeCauses :
    (∃ t, exec .pad { busy with len := -1 } = .next t ∧ t.errf = true ∧ t.err = .length) ∧
    (∃ t, exec .pad { busy with len := 137, cfg := ⟨some 136, some 64, true⟩ } = .next t ∧ t.errf = true ∧ t.err = .alloc) ∧
    (∃ t, exec .rcnext spent = .next t ∧ t.errf = true ∧ t.err = .seq) ∧
    (∃ t, exec .absorb busy = .next t ∧ t.errf = true ∧ t.err = .seq) ∧
    (∃ t, exec .squeeze padded = .next t ∧ t.errf = true ∧ t.err = .seq) := by
  refine ⟨⟨_, rfl, rfl, rfl⟩, ⟨({ busy with len := 137, cfg := ⟨some 136, some 64, true⟩ } : State).raise .alloc, ?_, rfl, rfl⟩,
    ⟨_, rfl, rfl, rfl⟩, ⟨_, rfl, rfl, rfl⟩, ⟨padded.raise .seq, ?_, rfl, rfl⟩⟩
  · exact (unlessError_running (s := { busy with len := 137, cfg := ⟨some 136, some 64, true⟩ }) rfl).trans
      ((padOp_eq_next (s := { busy with len := 137, cfg := ⟨some 136, some 64, true⟩ })).mpr (.inr (.inl ⟨by decide, by decide +kernel, rfl⟩)))
  · exact (unlessError_running (s := padded) rfl).trans
      ((squeezeOp_eq_next (s := padded)).mpr (.inl ⟨by decide, rfl⟩))

theorem witness_LeavingTheErrorState :
    (∃ t, (doing held [.command 0x4000]).errf = true ∧ step (doing held [.command 0x4000]) = .next t ∧ t.errf = false) ∧
    (∃ t, (doing held [.reset]).errf = true ∧ step (doing held [.reset]) = .next t ∧ t.errf = false) :=
  ⟨⟨_, rfl, rfl, rfl⟩, ⟨_, rfl, rfl, rfl⟩⟩

theorem witness_FlagChanges :
    (∃ t, exec .pad (withMsg []) = .next t ∧ (withMsg []).pvalid = false ∧ t.pvalid = true) ∧
    (∃ t, exec .squeeze paddedEmpty = .next t ∧ paddedEmpty.dvalid = false ∧ t.dvalid = true) ∧
    (∃ t, exec .init padded = .next t ∧ padded.pvalid = true ∧ t.pvalid = false) ∧
    (∃ t, exec .init (squeezeWrites paddedEmpty) = .next t ∧ (squeezeWrites paddedEmpty).dvalid = true ∧
      t.dvalid = false) ∧
    (∃ t, exec .init held = .next t ∧ held.errf = true ∧ t.errf = false) ∧
    (∃ t, exec .rcnext spent = .next t ∧ spent.errf = false ∧ t.errf = true) :=
  ⟨⟨paddedEmpty, (unlessError_running (s := withMsg []) rfl).trans ((padOp_eq_next (s := withMsg [])).mpr
      (.inr (.inr ⟨by decide, by decide +kernel, [], rfl, rfl⟩))), rfl, rfl⟩,
    ⟨squeezeWrites paddedEmpty, (unlessError_running (s := paddedEmpty) rfl).trans
      ((squeezeOp_eq_next (s := paddedEmpty)).mpr (.inr ⟨by decide +kernel, rfl⟩)), rfl, rfl⟩,
    ⟨_, rfl, rfl, rfl⟩, ⟨_, rfl, rfl, rfl⟩, ⟨_, rfl, rfl, rfl⟩, ⟨_, rfl, rfl, rfl⟩⟩

theorem witness_LfsrStepByValue :
    (0x80 : BitVec 8) ≠ 0 ∧ (0 < 1 ∧ 1 < 255) ∧ (0 < 254 ∧ 254 < 255) ∧ lfsrAdvance 1 0x01 = 0x02 := by decide

theorem witness_TableEqualsLfsrRun : (0 < 24 ∧ 23 < 24) ∧ rcTable[23]? = some 0x8000000080008008 := by decide

theorem witness_RcseedResult : busy.errf = false ∧ held.errf = true := by decide

theorem witness_RcnextResult :
    (State.reset.errf = false ∧ State.reset.rnd.toNat < 24 ∧ State.reset.rnd = 0) ∧
    (busy.errf = false ∧ busy.rnd.toNat < 24 ∧ busy.rnd = 23) := by decide

theorem witness_RcnextSequenceAfterSeed : busy.errf = false ∧ (1 ≤ 1 ∧ 1 ≤ 24) ∧ (1 ≤ 24 ∧ 24 ≤ 24) := by decide

theorem witness_RcldResult :
    (0 : RoundIndex).toNat ≤ 23 ∧ (23 : RoundIndex).toNat ≤ 23 ∧ spent.errf = false ∧ held.errf = true := by decide

theorem witness_RotationMovesBits : (0 < 64 ∧ 63 < 64) ∧ (rotl64 1 63).getLsbD ((0 + 63) % 64) = true := by decide

theorem witness_ThetaResult : busy.errf = false ∧ held.errf = true ∧ (∃ t, exec .theta busy = .next t) :=
  ⟨rfl, rfl, _, rfl⟩

theorem witness_RhoResult : busy.errf = false ∧ held.errf = true ∧ (∃ t, exec .rho busy = .next t) :=
  ⟨rfl, rfl, _, rfl⟩

theorem witness_RhoOffsetsByWalk :
    (0 < 24 ∧ 23 < 24) ∧ ((4 : Fin 5), (4 : Fin 5)) ≠ (0, 0) ∧ rhoWalk 11 = (4, 4) := by decide

theorem witness_PiResult : busy.errf = false ∧ held.errf = true ∧ (∃ t, exec .pi busy = .next t) :=
  ⟨rfl, rfl, _, rfl⟩

theorem witness_ChiResult : busy.errf = false ∧ held.errf = true ∧ (∃ t, exec .chi busy = .next t) :=
  ⟨rfl, rfl, _, rfl⟩

theorem witness_IotaResult :
    busy.errf = false ∧ held.errf = true ∧ ((4 : Fin 5), (0 : Fin 5)) ≠ (0, 0) ∧ (∃ t, exec .iota busy = .next t) :=
  ⟨rfl, rfl, by decide, _, rfl⟩

theorem witness_RoundResult :
    (0 : RoundIndex).toNat ≤ 23 ∧ (23 : RoundIndex).toNat ≤ 23 ∧ busy.errf = false ∧ held.errf = true := by decide

theorem witness_KeccakResult : busy.errf = false ∧ held.errf = true := by decide

theorem witness_PaddedLengthRule :
    0 % 136 = 0 ∧ 136 % 136 = 0 ∧ 135 % 136 ≠ 0 ∧ 137 % 136 ≠ 0 ∧ (272 % 136 = 0 ∧ 137 + 1 ≤ 272) := by decide

/-- A message of ten bytes, which has every clause but the last byte at once; one of 135 bytes, which has that; and one of
136 bytes that just fits a buffer of 136. -/
theorem witness_PadResult :
    (let s := withMsg debugTest
     s.errf = false ∧ 0 ≤ s.len ∧ roomFor s.cfg (paddedLen s.len.toNat) ∧ messageReadable s ∧ paddedLen s.len.toNat = 136) ∧
    (let s := withMsg (List.replicate 135 0x61)
     s.errf = false ∧ 0 ≤ s.len ∧ roomFor s.cfg (paddedLen s.len.toNat) ∧ messageReadable s ∧ paddedLen s.len.toNat = 136) ∧
    (let s := { withMsg (List.replicate 136 0x61) with cfg := ⟨some 136, some 9, true⟩ }
     s.errf = false ∧ 0 ≤ s.len ∧ roomFor s.cfg (paddedLen s.len.toNat) ∧ messageReadable s) :=
  ⟨⟨rfl, by decide, (fitsBuffer_iff _ _).mp (by decide +kernel), by decide +kernel, by decide +kernel⟩,
    ⟨rfl, by decide +kernel, (fitsBuffer_iff _ _).mp (by decide +kernel), by decide +kernel, by decide +kernel⟩,
    ⟨rfl, by decide +kernel, (fitsBuffer_iff _ _).mp (by decide +kernel), by decide +kernel⟩⟩

/-- A negative length; a padded length over the capacity; and one that does not fit `LENW - 1` bits. -/
theorem witness_PadErrors :
    (busy.errf = false ∧ ({ busy with len := -1 } : State).len < 0) ∧
    (let s : State := { busy with len := 137, cfg := ⟨some 271, some 64, true⟩ }
     s.errf = false ∧ 0 ≤ s.len ∧ ¬ roomFor s.cfg (paddedLen s.len.toNat)) ∧
    (let s : State := { busy with len := 127, cfg := ⟨none, some 8, true⟩ }
     s.errf = false ∧ 0 ≤ s.len ∧ ¬ roomFor s.cfg (paddedLen s.len.toNat)) :=
  ⟨⟨rfl, by decide⟩, ⟨rfl, by decide, (fitsBuffer_eq_false _ _).mp (by decide +kernel)⟩,
    ⟨rfl, by decide, (fitsBuffer_eq_false _ _).mp (by decide +kernel)⟩⟩

theorem witness_UnreadableMessageStops :
    let s : State := { withMsg debugTest with len := 11 }
    0 ≤ s.len ∧ roomFor s.cfg (paddedLen s.len.toNat) ∧ ¬ messageReadable s ∧ s.errf = false :=
  ⟨by decide, (fitsBuffer_iff _ _).mp (by decide +kernel), by decide +kernel, rfl⟩

theorem witness_XorblkResult :
    padded.errf = false ∧ padded.pvalid = true ∧ padded.blk < padded.nblk ∧
    (∀ a, a < 136 → (padded.pbuf.read (136 * padded.blk + a)).isSome = true) := by decide +kernel

theorem witness_AbsorbResult :
    padded.errf = false ∧ padded.pvalid = true ∧ padded.blk < padded.nblk ∧
    (∀ a, a < 136 → (padded.pbuf.read (136 * padded.blk + a)).isSome = true) := witness_XorblkResult

theorem witness_SequencingErrors :
    (spent.errf = false ∧ ¬ spent.rnd.toNat < 24) ∧
    (busy.errf = false ∧ ¬ (busy.pvalid = true ∧ busy.blk < busy.nblk)) ∧
    (paddedEmpty.errf = false ∧ ¬ (paddedEmpty.pvalid = true ∧ paddedEmpty.blk < paddedEmpty.nblk)) ∧
    (padded.errf = false ∧ ¬ (padded.pvalid = true ∧ padded.blk = padded.nblk)) ∧
    (∃ t, Instr.rcnext.wellFormed = true ∧ exec .rcnext spent = .next t ∧ t.err = .seq) :=
  ⟨by decide, by decide, by decide +kernel, by decide +kernel, _, rfl, rfl, rfl⟩

theorem witness_SqueezeResult :
    paddedEmpty.errf = false ∧ paddedEmpty.pvalid = true ∧ paddedEmpty.blk = paddedEmpty.nblk := by decide +kernel

/-- From a running engine, and from the error state. -/
theorem witness_DigestComputesFunction :
    (let s := withMsg debugTest
     0 ≤ s.len ∧ roomFor s.cfg (paddedLen s.len.toNat) ∧ messageReadable s) ∧
    (let s := (withMsg debugTest).raise .seq
     0 ≤ s.len ∧ roomFor s.cfg (paddedLen s.len.toNat) ∧ messageReadable s) :=
  ⟨⟨by decide, (fitsBuffer_iff _ _).mp (by decide +kernel), by decide +kernel⟩,
    ⟨by decide, (fitsBuffer_iff _ _).mp (by decide +kernel), by decide +kernel⟩⟩

/-- Two states that differ in lanes, generator, flags, and in `MSG` beyond the length. -/
theorem witness_DigestDependsOnMessageOnly :
    let s := withMsg debugTest
    let u : State := { withMsg (debugTest ++ [0xAA]) with len := 10, lanes := counting, rnd := 9, errf := true, err := .cmd }
    s.cfg = u.cfg ∧ sameMessage s u ∧ messageReadable s :=
  ⟨rfl, ⟨rfl, by decide +kernel⟩, by decide +kernel⟩

theorem witness_DigestIdempotent : ∃ t, exec .digest { busy with len := -1 } = .next t := ⟨_, rfl⟩

theorem witness_FailingDigest :
    ({ held with len := -1 } : State).len < 0 ∧
    (let s : State := { held with len := 137, cfg := ⟨some 136, some 64, true⟩ }
     0 ≤ s.len ∧ ¬ roomFor s.cfg (paddedLen s.len.toNat)) :=
  ⟨by decide, by decide, (fitsBuffer_eq_false _ _).mp (by decide +kernel)⟩

theorem witness_EmptyMessageDigest : held.len = 0 := by decide

theorem witness_CapacityLanesUntouched :
    (∃ t, exec .xorblk busy = .next t) ∧ 17 ≤ (17 : Fin 25).val ∧ 17 ≤ (24 : Fin 25).val :=
  ⟨⟨_, rfl⟩, by decide, by decide⟩

theorem witness_CommandsLeaveHostAlone :
    (∃ t, exec (.round 3) busy = .next t) ∧ Instr.round 3 ≠ .pad ∧ Instr.round 3 ≠ .digest ∧
    Instr.round 3 ≠ .squeeze :=
  ⟨⟨_, rfl⟩, by decide, by decide, by decide⟩

theorem witness_LittleEndianBits :
    padded.msg.readLane 0 = some 0x6574206775626564 ∧ (0 < 8 ∧ 7 < 8) := by decide +kernel

/-- A state with both parameters bounded, two constants run, and a word to come. -/
def small : State :=
  { State.reset with
    cfg := ⟨some 136, some 16, true⟩, lanes := counting, lfsr := 0xD8, rc := 0x8082, rnd := 2, len := 3,
    msg := [(0, 0x61), (1, 0x62), (2, 0x63)], host := [.command 0x4F00] }

theorem small_inv : small.Inv where
  cfgWf := by decide
  msgWf := by decide
  pbufWf := by decide
  digWf := by decide
  digRange := by decide
  rndLegal := by decide
  lfsrRun := by decide +kernel
  rcLast := by decide +kernel
  lenRange := ⟨by decide, by decide⟩
  plenAligned := by decide
  plenFits := by decide +kernel
  blkBound := by decide
  errNone := by decide
  errFlags := by decide
  dvalidDone := by decide
  padHeld := by decide
  digHeld := by decide

theorem witness_StepKeepsInvariant :
    (doing small [.command 0x1200]).Inv ∧ ∃ t, step (doing small [.command 0x1200]) = .next t :=
  ⟨{ small_inv with }, _, rfl⟩

theorem witness_EveryCommandCompletes : small.Inv ∧ messageReadable small := ⟨small_inv, by decide⟩

theorem witness_ResetActionResult : (doing held [.reset, .reset]).host = .reset :: [.reset] := rfl

theorem witness_RegisterReads :
    (8 < 9 ∧ (doing busy [.readReg 9]).host = .readReg 9 :: []) ∧
    (0 ≤ 8 ∧ (doing busy [.readReg 0]).host = .readReg 0 :: []) ∧
    (8 ≤ 8 ∧ (doing busy [.readReg 8]).host = .readReg 8 :: []) :=
  ⟨⟨by decide, rfl⟩, ⟨by decide, rfl⟩, ⟨by decide, rfl⟩⟩

/-- A state with a digest that has the invariant. -/
theorem witness_DigestReadGate :
    (let s := doing (squeezeWrites (padWrites { small with len := 0 } [])) [.readDig 31]
     s.host = .readDig 31 :: [] ∧ s.Inv ∧ s.dvalid = true ∧ 31 < 32) ∧
    (doing busy [.readDig 0]).dvalid = false ∧
    ((doing (squeezeWrites paddedEmpty) [.readDig 32]).dvalid = true ∧ 32 ≤ 32) :=
  ⟨⟨rfl, { squeezeWrites_inv (padWrites_inv (s := { small with len := 0 })
        { small_inv with lenRange := ⟨by decide, by decide⟩ } rfl (bs := []) (by decide +kernel)) rfl
        (by decide +kernel) with }, rfl, by decide⟩,
    rfl, rfl, by decide⟩

theorem witness_HostWritesLen :
    (doing { busy with cfg := ⟨none, none, true⟩ } [.writeLen (-1)]).host = .writeLen (-1) :: [] ∧
    ({ busy with cfg := ⟨none, none, true⟩ } : State).cfg.lenw = none ∧ ({ busy with cfg := ⟨none, some 64, true⟩ } : State).cfg.lenw = some 64 ∧ 0 < 64 ∧
    lenWritten ⟨none, some 1, true⟩ 1 = -1 := by decide

theorem witness_HostWritesMessage :
    (doing busy [.writeMsg 5 debugTest]).host = .writeMsg 5 debugTest :: [] ∧ (0 < debugTest.length ∧ 9 < debugTest.length) ∧
    (4 < 5 ∨ 5 + debugTest.length ≤ 4) ∧ (15 < 5 ∨ 5 + debugTest.length ≤ 15) := by decide

/-- Each of the two cases, on a `PAD` that completes. -/
theorem witness_UnboundedBufferNeverFails :
    (let s := doing { busy with cfg := ⟨none, some 64, false⟩ } [.command 0x4100]
     s.cfg.pbufCap = none ∧ s.cfg.lenLimit = false ∧ s.err ≠ .alloc ∧ (resultState (step s)).isSome = true) ∧
    (let s := doing busy [.command 0x4100]
     s.cfg.pbufCap = none ∧ s.cfg.lenw = none ∧ s.err ≠ .alloc ∧ (resultState (step s)).isSome = true) := by
  decide +kernel

/-- The largest `LEN` of 8 bits, whose padded length 136 does not fit 7 bits. -/
theorem witness_LengthBeyondItsBitsHasNoRoom :
    let s : State := { busy with len := 127, cfg := ⟨none, some 8, true⟩ }
    s.cfg.lenLimit = true ∧ s.cfg.lenw = some 8 ∧ 0 ≤ s.len ∧ 2 ^ (8 - 1) ≤ paddedLen s.len.toNat ∧ s.errf = false := by
  decide +kernel

end Sys2Proof.Machine.Slice0
end

section
/-! PROOFS. What one command can do, and what one action of the host can do, each said once; then the statements about
the state: the values after reset, the flags, the frame of every command, the registers the host reads and writes, and
the invariant of every step. -/

namespace Sys2Proof.Machine

/-! ### What a command can do -/

/-- When a command other than `INIT` and `DIGEST` raises, and with which code (rules R57, R113, R115). -/
def Raises (s : State) (i : Instr) (e : ErrCode) : Prop :=
  match i with
  | .rcnext => ¬ s.rnd.toNat < numRounds ∧ e = .seq
  | .rcld r => roundIndexLegal r = false ∧ e = .cmd
  | .round r => roundIndexLegal r = false ∧ e = .cmd
  | .pad =>
    (s.len < 0 ∧ e = .length) ∨ (0 ≤ s.len ∧ fitsBuffer s.cfg (paddedLen s.len.toNat) = false ∧ e = .alloc)
  | .xorblk => blockLeft s = false ∧ e = .seq
  | .absorb => blockLeft s = false ∧ e = .seq
  | .squeeze => allAbsorbed s = false ∧ e = .seq
  | _ => False

/-- What the commands do that, when they succeed, write the lanes, the generator and `BLK` only (rule R30). -/
def Computes (s : State) (i : Instr) (t : State) : Prop :=
  match i with
  | .rcseed => t = rcSeedOp s
  | .rcnext => s.rnd.toNat < numRounds ∧ t = rcNextOp s
  | .rcld r => roundIndexLegal r = true ∧ t = rcLoadOp r.toNat s
  | .theta => t = thetaOp s
  | .rho => t = rhoOp s
  | .pi => t = piOp s
  | .chi => t = chiOp s
  | .iota => t = iotaOp s
  | .round r => roundIndexLegal r = true ∧ t = roundOp r.toNat s
  | .keccakf => t = keccakOp s
  | .xorblk => blockLeft s = true ∧
    ∃ block, s.pbuf.readBytes (rateBytes * s.blk) rateBytes = some block ∧ t = xorblkWrites s block
  | .absorb => blockLeft s = true ∧
    ∃ block, s.pbuf.readBytes (rateBytes * s.blk) rateBytes = some block ∧ t = keccakOp (xorblkWrites s block)
  | .init | .pad | .squeeze | .digest => False

/-- What the commands do that, when they succeed, write a flag (rule R24). -/
def WritesFlags (s : State) (i : Instr) (t : State) : Prop :=
  match i with
  | .init => t = s.initialise
  | .pad => s.errf = false ∧ 0 ≤ s.len ∧ fitsBuffer s.cfg (paddedLen s.len.toNat) = true ∧
    ∃ bs, s.msg.readBytes 0 s.len.toNat = some bs ∧ t = padWrites s bs
  | .squeeze => s.errf = false ∧ allAbsorbed s = true ∧ t = squeezeWrites s
  | .digest => 0 ≤ s.len ∧ fitsBuffer s.cfg (paddedLen s.len.toNat) = true ∧
    ∃ bs u, s.msg.readBytes 0 s.len.toNat = some bs ∧
      absorbMany (padWrites s.initialise bs).nblk (padWrites s.initialise bs) = .next u ∧
      u = { (padWrites s.initialise bs) with
            lanes := u.lanes, lfsr := u.lfsr, rc := u.rc, rnd := u.rnd, blk := (padWrites s.initialise bs).nblk } ∧
      t = squeezeWrites u
  | _ => False

/-- What a command can do when it answers a next state: be held, raise, or succeed (rules R112, R117, R118). -/
def Effect (s : State) (i : Instr) (t : State) : Prop :=
  (s.errf = true ∧ i ≠ .init ∧ i ≠ .digest ∧ t = s) ∨
  (s.errf = false ∧ ∃ e, Raises s i e ∧ t = s.raise e) ∨
  (i = .digest ∧ ∃ e, Raises s.initialise .pad e ∧ t = s.initialise.raise e) ∨
  (s.errf = false ∧ Computes s i t) ∨
  WritesFlags s i t

theorem raises_code_ne_none {s : State} {i : Instr} {e : ErrCode} (h : Raises s i e) : e ≠ .none := by
  rintro rfl
  cases i with
  | rcnext | rcld | round | xorblk | absorb | squeeze => cases h.2
  | pad =>
    rcases h with ⟨_, h⟩ | ⟨_, _, h⟩
    · cases h
    · cases h
  | rcseed | theta | rho | pi | chi | iota | keccakf | init | digest => exact h

theorem raises_ne_init {s : State} {i : Instr} {e : ErrCode} (h : Raises s i e) : i ≠ .init := by
  rintro rfl
  exact h

theorem computes_frame {s t : State} {i : Instr} (h : Computes s i t) :
    ∃ A l c n b, t = { s with lanes := A, lfsr := l, rc := c, rnd := n, blk := b } := by
  cases i with
  | rcseed | theta | rho | pi | chi | iota => exact ⟨_, _, _, _, _, h⟩
  | rcnext | rcld | round => exact ⟨_, _, _, _, _, h.2⟩
  | keccakf => exact ⟨_, _, _, _, _, h.trans (keccakOp_frame s)⟩
  | xorblk => obtain ⟨_, block, _, h⟩ := h; exact ⟨_, _, _, _, _, h⟩
  | absorb => obtain ⟨_, block, _, h⟩ := h; exact ⟨_, _, _, _, _, h.trans (keccakOp_frame _)⟩
  | init | pad | squeeze | digest => exact h.elim

theorem computes_ne_flag_commands {s t : State} {i : Instr} (h : Computes s i t) :
    i ≠ .init ∧ i ≠ .pad ∧ i ≠ .squeeze ∧ i ≠ .digest := by
  refine ⟨?_, ?_, ?_, ?_⟩ <;> rintro rfl <;> exact h

/-- The hold of rule R117 leaves only the meaning of a command that is not held to be shown. -/
theorem effect_of_unlessError {s t : State} {i : Instr} {k : Result} (h : unlessError s k = .next t)
    (hi : i ≠ .init) (hd : i ≠ .digest) (hk : s.errf = false → k = .next t → Effect s i t) : Effect s i t := by
  rcases unlessError_eq_next.mp h with ⟨he, rfl⟩ | ⟨he, h⟩
  · exact .inl ⟨he, hi, hd, rfl⟩
  · exact hk he h

theorem effect_of_raises {s : State} {i : Instr} {e : ErrCode} (he : s.errf = false) (h : Raises s i e) :
    Effect s i (s.raise e) :=
  .inr (.inl ⟨he, e, h, rfl⟩)

theorem effect_of_digest_raises {s : State} {e : ErrCode} (h : Raises s.initialise .pad e) :
    Effect s .digest (s.initialise.raise e) :=
  .inr (.inr (.inl ⟨rfl, e, h, rfl⟩))

theorem effect_of_computes {s t : State} {i : Instr} (he : s.errf = false) (h : Computes s i t) : Effect s i t :=
  .inr (.inr (.inr (.inl ⟨he, h⟩)))

theorem effect_of_writesFlags {s t : State} {i : Instr} (h : WritesFlags s i t) : Effect s i t :=
  .inr (.inr (.inr (.inr h)))

/-- A command with a round index: a legal one gives it its meaning, any other makes it an illegal word (log 13). -/
theorem effect_of_checked {s t u : State} {i : Instr} {r : RoundIndex}
    (h : (if roundIndexLegal r then unlessError s (.next u) else illegalCommand s) = .next t)
    (hi : i ≠ .init) (hd : i ≠ .digest) (hok : roundIndexLegal r = true → Computes s i u)
    (hbad : roundIndexLegal r = false → Raises s i .cmd) : Effect s i t := by
  cases hr : roundIndexLegal r with
  | false =>
    rw [hr] at h
    exact effect_of_unlessError h hi hd fun he hk => by cases hk; exact effect_of_raises he (hbad hr)
  | true =>
    rw [hr] at h
    exact effect_of_unlessError h hi hd fun he hk => by cases hk; exact effect_of_computes he (hok hr)

/-- What a command can do, said once for all of them. -/
theorem exec_effect {i : Instr} {s t : State} (h : exec i s = .next t) : Effect s i t := by
  cases i with
  | rcseed | theta | rho | pi | chi | iota | keccakf =>
    exact effect_of_unlessError h (by simp) (by simp) fun he hk => effect_of_computes he (Host.Outcome.next.inj hk).symm
  | rcnext =>
    refine effect_of_unlessError h (by simp) (by simp) fun he hk => ?_
    split at hk <;> cases hk
    · exact effect_of_computes he ⟨‹_›, rfl⟩
    · exact effect_of_raises he ⟨‹_›, rfl⟩
  | rcld r => exact effect_of_checked h (by simp) (by simp) (⟨·, rfl⟩) (⟨·, rfl⟩)
  | round r => exact effect_of_checked h (by simp) (by simp) (⟨·, rfl⟩) (⟨·, rfl⟩)
  | init => cases h; exact effect_of_writesFlags rfl
  | pad =>
    refine effect_of_unlessError h (by simp) (by simp) fun he hk => ?_
    rcases padOp_eq_next.mp hk with ⟨hl, rfl⟩ | ⟨hl, hf, rfl⟩ | hw
    · exact effect_of_raises he (.inl ⟨hl, rfl⟩)
    · exact effect_of_raises he (.inr ⟨hl, hf, rfl⟩)
    · exact effect_of_writesFlags ⟨he, hw⟩
  | xorblk =>
    refine effect_of_unlessError h (by simp) (by simp) fun he hk => ?_
    rcases xorblkOp_eq_next.mp hk with ⟨hb, rfl⟩ | hw
    · exact effect_of_raises he ⟨hb, rfl⟩
    · exact effect_of_computes he hw
  | absorb =>
    refine effect_of_unlessError h (by simp) (by simp) fun he hk => ?_
    rcases absorbOp_eq_next.mp hk with ⟨hb, rfl⟩ | hw
    · exact effect_of_raises he ⟨hb, rfl⟩
    · exact effect_of_computes he hw
  | squeeze =>
    refine effect_of_unlessError h (by simp) (by simp) fun he hk => ?_
    rcases squeezeOp_eq_next.mp hk with ⟨hb, rfl⟩ | hw
    · exact effect_of_raises he ⟨hb, rfl⟩
    · exact effect_of_writesFlags ⟨he, hw⟩
  | digest =>
    rcases digestOp_eq_next h with ⟨hl, rfl⟩ | ⟨hl, hf, rfl⟩ | hw
    · exact effect_of_digest_raises (.inl ⟨hl, rfl⟩)
    · exact effect_of_digest_raises (.inr ⟨hl, hf, rfl⟩)
    · exact effect_of_writesFlags hw

/-! ### What an action of the host can do -/

theorem step_of_no_action {s : State} (h : s.host = []) : step s = .next s := by
  unfold step
  rw [h]
  rfl

theorem step_of_action {s : State} {a : HostAction} {rest : List HostAction} (h : s.host = a :: rest) :
    step s = hostAct a (s.withHost rest) := by
  unfold step
  rw [h]

theorem illegalCommand_eq_next {s t : State} (h : illegalCommand s = .next t) : t = s ∨ t = s.raise .cmd := by
  rcases unlessError_eq_next.mp h with ⟨_, rfl⟩ | ⟨_, hk⟩
  · exact .inl rfl
  · cases hk; exact .inr rfl

theorem presentWord_eq_next {w : CmdWord} {s t : State} (h : presentWord w s = .next t) :
    (∃ i, decode w = .command i ∧ exec i s = .next t) ∨ t = s ∨ t = s.raise .cmd := by
  cases hd : decode w with
  | command i =>
    rw [presentWord, hd] at h
    exact .inl ⟨i, rfl, h⟩
  | illegal why =>
    rw [presentWord, hd] at h
    exact .inr (illegalCommand_eq_next h)

theorem hostReadReg_of_none {s : State} {n : Nat} (h : s.readReg n = none) :
    hostReadReg n s = .refused .noSuchRegister := by
  rw [hostReadReg, h]

theorem hostReadReg_of_some {s : State} {n : Nat} {v : RegValue} (h : s.readReg n = some v) :
    hostReadReg n s = .next { s with answer := some (.reg n v) } := by
  rw [hostReadReg, h]

theorem hostReadReg_eq_next {n : Nat} {s t : State} (h : hostReadReg n s = .next t) :
    ∃ v, t = { s with answer := some (.reg n v) } := by
  cases hr : s.readReg n with
  | none => rw [hostReadReg_of_none hr] at h; cases h
  | some v => rw [hostReadReg_of_some hr] at h; cases h; exact ⟨v, rfl⟩

theorem hostReadDig_eq_next {a : Nat} {s t : State} (h : hostReadDig a s = .next t) :
    ∃ b, t = { s with answer := some (.digByte a b) } := by
  unfold hostReadDig at h
  cases hd : s.dvalid with
  | false => rw [hd] at h; cases h
  | true =>
    rw [hd, if_pos rfl] at h
    cases hb : (if a < digestBytes then s.dig.read a else none) with
    | none => rw [hb] at h; cases h
    | some b => rw [hb] at h; cases h; exact ⟨b, rfl⟩

/-! ### Reset -/

theorem lenInRange_zero (c : Config) : lenInRange c 0 := by
  obtain ⟨cap, _ | w, limit⟩ := c
  · trivial
  · exact ⟨by simp, by simp⟩

/-- A reset leaves a state with the invariant whatever the engine held, if the parameters and `MSG` are proper. -/
theorem afterReset_inv {s : State} (hc : s.cfg.wf) (hm : s.msg.wf) : s.afterReset.Inv where
  cfgWf := hc
  msgWf := hm
  pbufWf := .nil
  digWf := .nil
  digRange := by simp
  rndLegal := by simp
  lfsrRun := rfl
  rcLast := by simp
  lenRange := lenInRange_zero _
  plenAligned := rfl
  plenFits := (fitsBuffer_iff _ _).mpr ⟨fun _ _ => Nat.zero_le _, fun _ _ _ => Nat.two_pow_pos _⟩
  blkBound := Nat.zero_le _
  errNone := by simp
  errFlags := by simp
  dvalidDone := by simp
  padHeld := by simp
  digHeld := by simp

/-- Settles O48: the state after reset is a reset of itself. -/
theorem resetHasInvariant : Obligations.ResetHasInvariant :=
  afterReset_inv (s := State.reset) (by decide) .nil

/-- Settles O50, by evaluation of the state after reset. -/
theorem resetValues : Obligations.ResetValues :=
  ⟨zero_lane, rfl, rfl, rfl, rfl, rfl, rfl, rfl, rfl, rfl, rfl, rfl, rfl⟩

/-- Settles O51: the reset and `INIT` side by side from one state. -/
theorem resetActionResult : Obligations.ResetActionResult := by
  intro s rest hs
  refine ⟨(s.withHost rest).afterReset, s.initialise, step_of_action hs, rfl, rfl, zero_lane, ?_⟩
  exact ⟨rfl, rfl, rfl, rfl, Nat.zero_div _, rfl, rfl, rfl, rfl, rfl, rfl⟩

/-! ### The invariant -/

theorem roundOp_inv {s : State} (h : s.Inv) {r : Nat} (hr : r < numRounds) : (roundOp r s).Inv := by
  rw [roundOp_eq]
  exact withLanes_inv (rcLoadOp_inv h hr) _

theorem roundIndexLegal_iff {r : RoundIndex} : roundIndexLegal r = true ↔ r.toNat < numRounds :=
  decide_eq_true_iff

theorem computes_keeps_inv {s t : State} {i : Instr} (h : s.Inv) (hc : Computes s i t) : t.Inv := by
  cases i with
  | rcseed => exact hc ▸ rcSeedOp_inv h
  | rcnext => obtain ⟨hr, rfl⟩ := hc; exact rcNextOp_inv h hr
  | rcld r => obtain ⟨hr, rfl⟩ := hc; exact rcLoadOp_inv h (roundIndexLegal_iff.mp hr)
  | theta | rho | pi | chi | iota => exact hc ▸ withLanes_inv h _
  | round r => obtain ⟨hr, rfl⟩ := hc; exact roundOp_inv h (roundIndexLegal_iff.mp hr)
  | keccakf => exact hc ▸ keccakOp_inv h
  | xorblk => obtain ⟨hb, block, _, rfl⟩ := hc; exact xorblkWrites_inv h (blockLeft_iff.mp hb).2 block
  | absorb =>
    obtain ⟨hb, block, _, rfl⟩ := hc
    exact keccakOp_inv (xorblkWrites_inv h (blockLeft_iff.mp hb).2 block)
  | init | pad | squeeze | digest => exact hc.elim

theorem writesFlags_keeps_inv {s t : State} {i : Instr} (h : s.Inv) (hw : WritesFlags s i t) : t.Inv := by
  cases i with
  | init => exact hw ▸ initialise_inv h
  | pad =>
    obtain ⟨he, _, hf, bs, hm, rfl⟩ := hw
    rw [← (readBytes_eq_some.mp hm).1] at hf
    exact padWrites_inv h he hf
  | squeeze =>
    obtain ⟨_, hb, rfl⟩ := hw
    obtain ⟨hp, hb⟩ := allAbsorbed_iff.mp hb
    exact squeezeWrites_inv h hp hb
  | digest =>
    obtain ⟨_, hf, bs, u, hm, ha, hu, rfl⟩ := hw
    rw [← (readBytes_eq_some.mp hm).1] at hf
    have hi : u.Inv := absorbMany_inv (padWrites_inv (initialise_inv h) rfl hf) ha
    exact squeezeWrites_inv hi (by rw [hu]; rfl) (by rw [hu]; rfl)
  | _ => exact hw.elim

theorem exec_keeps_inv {i : Instr} {s t : State} (h : s.Inv) (hx : exec i s = .next t) : t.Inv := by
  rcases exec_effect hx with ⟨_, _, _, rfl⟩ | ⟨_, e, hr, rfl⟩ | ⟨_, e, hr, rfl⟩ | ⟨_, hc⟩ | hw
  · exact h
  · exact raise_inv h (raises_code_ne_none hr)
  · exact raise_inv (initialise_inv h) (raises_code_ne_none hr)
  · exact computes_keeps_inv h hc
  · exact writesFlags_keeps_inv h hw

theorem hostAct_keeps_inv {a : HostAction} {s t : State} (h : s.Inv) (hx : hostAct a s = .next t) : t.Inv := by
  cases a with
  | command w =>
    rcases presentWord_eq_next hx with ⟨i, _, hi⟩ | rfl | rfl
    · exact exec_keeps_inv h hi
    · exact h
    · exact raise_inv h (by decide)
  | writeLen v => cases hx; exact { h with lenRange := lenWritten_inRange s.cfg v h.cfgWf }
  | writeMsg offset bytes => cases hx; exact { h with msgWf := store_wf h.msgWf offset bytes }
  | readReg n => obtain ⟨v, rfl⟩ := hostReadReg_eq_next hx; exact { h with }
  | readDig a => obtain ⟨b, rfl⟩ := hostReadDig_eq_next hx; exact { h with }
  | reset => cases hx; exact afterReset_inv h.cfgWf h.msgWf

/-- Settles O47, by the host's next action, and for a command by its effect. -/
theorem stepKeepsInvariant : Obligations.StepKeepsInvariant := by
  intro s t h hx
  cases hs : s.host with
  | nil =>
    rw [step_of_no_action hs] at hx
    cases hx
    exact h
  | cons a rest =>
    rw [step_of_action hs] at hx
    exact hostAct_keeps_inv (s := s.withHost rest) { h with } hx

/-! ### Flags and frame -/

/-- What the commands that write a flag leave in the three flags (rule R24). -/
theorem writesFlags_flags {s t : State} {i : Instr} (h : WritesFlags s i t) :
    (i = .init ∧ t.pvalid = false ∧ t.dvalid = false ∧ t.errf = false) ∨
    (i = .pad ∧ s.errf = false ∧ t.pvalid = true ∧ t.dvalid = false ∧ t.errf = false) ∨
    (i = .squeeze ∧ s.errf = false ∧ t.pvalid = s.pvalid ∧ t.dvalid = true ∧ t.errf = false) ∨
    (i = .digest ∧ t.pvalid = true ∧ t.dvalid = true ∧ t.errf = false) := by
  cases i with
  | init => obtain rfl := h; simp
  | pad => obtain ⟨he, _, _, bs, _, rfl⟩ := h; simp [he]
  | squeeze => obtain ⟨he, _, rfl⟩ := h; simp [he]
  | digest => obtain ⟨_, _, bs, u, _, _, hu, rfl⟩ := h; rw [hu]; simp
  | _ => exact h.elim

/-- Settles O11, by the effect of the command. -/
theorem flagChanges : Obligations.FlagChanges := by
  intro i s t hx
  rcases exec_effect hx with ⟨he, hi, _, rfl⟩ | ⟨he, e, hr, rfl⟩ | ⟨rfl, e, hr, rfl⟩ | ⟨he, hc⟩ | hw
  · simp +contextual [he, hi]
  · simp [he, raises_code_ne_none hr, raises_ne_init hr]
  · simp [raises_code_ne_none hr]
  · obtain ⟨hi, hp, hq, _⟩ := computes_ne_flag_commands hc
    obtain ⟨A, l, c, n, b, rfl⟩ := computes_frame hc
    simp +contextual [he, hi, hp, hq]
  · rcases writesFlags_flags hw with ⟨rfl, h⟩ | ⟨rfl, h⟩ | ⟨rfl, h⟩ | ⟨rfl, h⟩ <;> simp +contextual [h]

/-- The frame of the commands that write a flag (rule R30). -/
theorem writesFlags_frame {s t : State} {i : Instr} (h : WritesFlags s i t) :
    t.len = s.len ∧ t.msg = s.msg ∧ t.cfg = s.cfg ∧ t.host = s.host ∧ t.answer = s.answer ∧
    (i ≠ .pad → i ≠ .digest → t.pbuf = s.pbuf) ∧ (i ≠ .squeeze → i ≠ .digest → t.dig = s.dig) := by
  cases i with
  | init => obtain rfl := h; simp
  | pad => obtain ⟨_, _, _, bs, _, rfl⟩ := h; simp
  | squeeze => obtain ⟨_, _, rfl⟩ := h; simp
  | digest => obtain ⟨_, _, bs, u, _, _, hu, rfl⟩ := h; rw [hu]; simp
  | _ => exact h.elim

/-- Settles O45, by the effect of the command. -/
theorem commandsLeaveHostAlone : Obligations.CommandsLeaveHostAlone := by
  intro i s t hx
  rcases exec_effect hx with ⟨_, _, _, rfl⟩ | ⟨_, e, _, rfl⟩ | ⟨_, e, _, rfl⟩ | ⟨_, hc⟩ | hw
  · simp
  · simp
  · simp
  · obtain ⟨A, l, c, n, b, rfl⟩ := computes_frame hc
    simp
  · exact writesFlags_frame hw

/-! ### The registers the host reads and writes -/

theorem status_flags (s : State) : s.status.getLsbD 0 = s.dvalid ∧ s.status.getLsbD 1 = s.pvalid ∧
    s.status.getLsbD 2 = s.errf ∧ s.status.toNat < 2 ^ 3 := by
  unfold State.status
  generalize s.errf = e, s.pvalid = p, s.dvalid = d
  revert e p d
  decide

theorem status_high_bits (s : State) {i : Nat} (hi : 3 ≤ i) : s.status.getLsbD i = false := by
  obtain ⟨-, -, -, hlt⟩ := status_flags s
  exact Nat.testBit_lt_two_pow (hlt.trans_le (Nat.pow_le_pow_right (by decide) hi))

/-- Zero bits above a value keep its number. -/
theorem toNat_zero_append (m : Nat) {n : Nat} (v : BitVec n) : ((0 : BitVec m) ++ v).toNat = v.toNat := by
  simp [BitVec.toNat_append]

theorem readReg_eq_none {s : State} {n : Nat} (h : 8 < n) : s.readReg n = none := by
  obtain ⟨k, rfl⟩ := Nat.exists_eq_add_of_le' h
  rfl

theorem readReg_eq_some {s : State} {n : Nat} (h : n ≤ 8) : ∃ v, s.readReg n = some v := by
  interval_cases n <;> exact ⟨_, rfl⟩

/-- Settles O52, by the number of the register. -/
theorem registerReads : Obligations.RegisterReads := by
  intro s rest n hs
  rw [step_of_action hs]
  refine ⟨fun hn => ?_, fun hn => ?_⟩
  · exact hostReadReg_of_none (readReg_eq_none hn)
  · obtain ⟨v, hv⟩ := readReg_eq_some (s := s.withHost rest) hn
    refine ⟨v, hostReadReg_of_some hv, ?_⟩
    refine ⟨?_, ?_, ?_, ?_, ?_, ?_, ?_, ?_, ?_⟩ <;> rintro rfl <;> cases hv
    · obtain ⟨hd, hp, he, -⟩ := status_flags s
      exact ⟨_, rfl, hd, hp, he, fun i => status_high_bits s⟩
    · exact ⟨_, rfl, toNat_zero_append 5 _⟩
    · rfl
    · rfl
    · rfl
    · rfl
    · exact ⟨_, rfl, toNat_zero_append 3 _⟩
    · rfl
    · rfl

theorem lenWritten_unbounded {c : Config} (h : c.lenw = none) (v : Int) : lenWritten c v = v := by
  obtain ⟨cap, lenw, limit⟩ := c
  obtain rfl := h
  rfl

theorem lenWritten_bounded {c : Config} {w : Nat} (h : c.lenw = some w) (v : Int) :
    lenWritten c v = (BitVec.ofInt w v).toInt := by
  obtain ⟨cap, lenw, limit⟩ := c
  obtain rfl := h
  rfl

/-- A bounded `LEN` keeps what is congruent to the value written (rule R21; log 4). -/
theorem lenWritten_congruent {c : Config} {w : Nat} (h : c.lenw = some w) (v : Int) :
    (2 ^ w : Int) ∣ lenWritten c v - v := by
  rw [lenWritten_bounded h, BitVec.toInt_ofInt]
  simpa using Int.dvd_bmod_sub_self (x := v) (m := 2 ^ w)

theorem lenInRange_bounded {c : Config} {w : Nat} (h : c.lenw = some w) {v : Int} :
    lenInRange c v ↔ -(2 ^ (w - 1) : Int) ≤ v ∧ v < 2 ^ (w - 1) := by
  obtain ⟨cap, lenw, limit⟩ := c
  obtain rfl := h
  exact Iff.rfl

/-- Settles O54, by the write and the range of what it leaves. -/
theorem hostWritesLen : Obligations.HostWritesLen := by
  intro s rest v hs
  refine ⟨_, step_of_action hs, rfl, fun hn => lenWritten_unbounded hn v, fun w hw hpos => ?_⟩
  have hc : s.cfg.wf := by
    intro h0
    rw [hw] at h0
    cases h0
    exact absurd hpos (Nat.lt_irrefl 0)
  obtain ⟨hlo, hhi⟩ := (lenInRange_bounded hw).mp (lenWritten_inRange s.cfg v hc)
  exact ⟨hlo, hhi, lenWritten_congruent hw v⟩

end Sys2Proof.Machine
end

section
/-! PROOFS. The byte spaces and the commands that read and write them: the bits of a lane in its bytes, the host's
accesses to `MSG` and `DIG`, what `SQUEEZE` writes, when `PAD` and `DIGEST` stop, that every command completes from the
invariant, and that a repeated `DIGEST` changes nothing. -/

namespace Sys2Proof.Machine

/-! ### Bits of little-endian bytes -/

/-- Bit `8j + i` of the number is bit `i` of its byte `j` (rule R37). -/
theorem leNat_testBit {bs : List Byte} {j : Nat} {b : Byte} (h : bs[j]? = some b) {i : Nat} (hi : i < 8) :
    (leNat bs).testBit (8 * j + i) = b.getLsbD i := by
  induction bs generalizing j with
  | nil => simp at h
  | cons c bs ih =>
    have hsplit := Nat.testBit_two_pow_mul_add (leNat bs) c.isLt (8 * j + i)
    rw [leNat, Nat.add_comm, show 256 = 2 ^ 8 from rfl, hsplit]
    cases j with
    | zero =>
      obtain rfl : c = b := by simpa using h
      simp [hi, BitVec.testBit_toNat]
    | succ j =>
      have hge : ¬ 8 * (j + 1) + i < 8 := by omega
      have hsub : 8 * (j + 1) + i - 8 = 8 * j + i := by omega
      rw [if_neg hge, hsub]
      exact ih (by simpa using h)

theorem leLane_getLsbD {bs : List Byte} {j : Nat} {b : Byte} (h : bs[j]? = some b) {i : Nat} (hi : i < 8) (hj : j < 8) :
    (leLane bs).getLsbD (8 * j + i) = b.getLsbD i := by
  have hlt : 8 * j + i < 64 := by omega
  rw [leLane, BitVec.getLsbD_ofNat, leNat_testBit h hi]
  simp [hlt]

/-- Settles O46, by the eight bytes the lane was read from. -/
theorem littleEndianBits : Obligations.LittleEndianBits := by
  intro m a v hv i j hi hj
  obtain ⟨bs, hbs, rfl⟩ := Option.map_eq_some_iff.mp hv
  obtain ⟨hlen, hread⟩ := readBytes_eq_some.mp hbs
  have hget : bs[j]? = some bs[j] := List.getElem?_eq_getElem (by omega)
  exact ⟨bs[j], (hread j hj).trans hget, leLane_getLsbD hget hi hj⟩

/-! ### The host's accesses to `MSG` and `DIG` -/

/-- Settles O55, by what can be read after the store. -/
theorem hostWritesMessage : Obligations.HostWritesMessage := by
  intro s rest a bs hs
  refine ⟨_, step_of_action hs, rfl, fun j hj => ?_, fun b hb => read_store_outside _ _ _ _ hb⟩
  exact (read_store _ _ _ _).trans (by simp [hj])

theorem hostReadDig_of_not_dvalid {s : State} (h : s.dvalid = false) (a : Nat) :
    hostReadDig a s = .refused .digNotValid := by
  simp [hostReadDig, h]

theorem hostReadDig_beyond {s : State} (h : s.dvalid = true) {a : Nat} (ha : digestBytes ≤ a) :
    hostReadDig a s = .refused .digOffset := by
  simp [hostReadDig, h, Nat.not_lt.mpr ha]

theorem hostReadDig_of_byte {s : State} (h : s.dvalid = true) {a : Nat} (ha : a < digestBytes) {b : Byte}
    (hb : s.dig.read a = some b) : hostReadDig a s = .next { s with answer := some (.digByte a b) } := by
  simp [hostReadDig, h, ha, hb]

/-- Settles O53, by the flag and the offset; the byte is there by the invariant. -/
theorem digestReadGate : Obligations.DigestReadGate := by
  intro s rest a hs
  have hstep : step s = hostReadDig a (s.withHost rest) := step_of_action hs
  rw [hstep]
  refine ⟨fun hd => hostReadDig_of_not_dvalid (s := s.withHost rest) hd a,
    fun hd ha => hostReadDig_beyond (s := s.withHost rest) hd ha, fun hinv hd ha => ?_⟩
  obtain ⟨b, hb⟩ := Option.isSome_iff_exists.mp (hinv.digHeld hd a ha)
  exact ⟨b, hb, hostReadDig_of_byte (s := s.withHost rest) hd ha hb⟩

/-! ### What `SQUEEZE` writes -/

theorem leBytes_append_getElem?_first (v : Lane) (bs : List Byte) {i : Nat} (hi : i < 8) :
    (leBytes v ++ bs)[i]? = some (laneByte v i) := by
  rw [List.getElem?_append_left (by simpa using hi), leBytes_getElem? v i hi]

theorem leBytes_append_getElem?_rest (v : Lane) (bs : List Byte) (i : Nat) : (leBytes v ++ bs)[8 + i]? = bs[i]? := by
  rw [List.getElem?_append_right (by simp), leBytes_length, Nat.add_sub_cancel_left]

@[simp] theorem squeezeBytes_length (A : Lanes) : (squeezeBytes A).length = digestBytes := by
  simp [squeezeBytes, digestBytes]

/-- Byte `8k + i` of the digest is byte `i` of the lane `L[k]` (rules R39, R102). -/
theorem squeezeBytes_getElem? (A : Lanes) {k : Fin 25} (hk : k.val < 4) {i : Nat} (hi : i < 8) :
    (squeezeBytes A)[8 * k.val + i]? = some (laneByte (A.linear k) i) := by
  have hfour : k = 0 ∨ k = 1 ∨ k = 2 ∨ k = 3 := by omega
  simp only [squeezeBytes, List.append_assoc]
  rcases hfour with rfl | rfl | rfl | rfl
  · rw [show 8 * (0 : Fin 25).val + i = i by simp, leBytes_append_getElem?_first _ _ hi]
  · rw [show 8 * (1 : Fin 25).val + i = 8 + i from rfl, leBytes_append_getElem?_rest,
      leBytes_append_getElem?_first _ _ hi]
  · rw [show 8 * (2 : Fin 25).val + i = 8 + (8 + i) by simp; omega, leBytes_append_getElem?_rest,
      leBytes_append_getElem?_rest, leBytes_append_getElem?_first _ _ hi]
  · rw [show 8 * (3 : Fin 25).val + i = 8 + (8 + (8 + i)) by simp; omega, leBytes_append_getElem?_rest,
      leBytes_append_getElem?_rest, leBytes_append_getElem?_rest, leBytes_getElem? _ i hi]

theorem squeezeWrites_read (s : State) (a : Nat) :
    (squeezeWrites s).dig.read a = if a < digestBytes then (squeezeBytes s.lanes)[a]? else s.dig.read a := by
  rw [squeezeWrites_dig, read_store]
  simp

theorem squeezeOp_of_allAbsorbed {s : State} (hp : s.pvalid = true) (hb : s.blk = s.nblk) :
    squeezeOp s = .next (squeezeWrites s) :=
  squeezeOp_eq_next.mpr (.inr ⟨allAbsorbed_iff.mpr ⟨hp, hb⟩, rfl⟩)

/-- Settles O37, by the bytes of the first four lanes in `DIG` after the write. -/
theorem squeezeResult : Obligations.SqueezeResult := by
  intro s he hp hb
  refine ⟨squeezeWrites s, ?_, rfl, fun k i hk hi => ?_, fun a ha => ?_⟩
  · exact (unlessError_running he).trans (squeezeOp_of_allAbsorbed hp hb)
  · have hlt : 8 * k.val + i < digestBytes := by unfold digestBytes; omega
    rw [squeezeWrites_read, if_pos hlt]
    exact squeezeBytes_getElem? s.lanes hk hi
  · have hge : ¬ a < digestBytes := Nat.not_lt.mpr ha
    rw [squeezeWrites_read, if_neg hge]

/-! ### When `PAD` and `DIGEST` stop -/

theorem messageReadable_iff (s : State) : messageReadable s ↔ (s.msg.readBytes 0 s.len.toNat).isSome = true := by
  simp only [readBytes_isSome, Nat.zero_add]

theorem padOp_of_unreadable {s : State} (hl : 0 ≤ s.len) (hf : roomFor s.cfg (paddedLen s.len.toNat))
    (hm : ¬ messageReadable s) : padOp s = .refused .msgUnreadable := by
  have hnone : s.msg.readBytes 0 s.len.toNat = none := by simpa [messageReadable_iff] using hm
  rw [padOp, if_neg (Int.not_lt.mpr hl), if_pos ((fitsBuffer_iff _ _).mpr hf), hnone]

/-- Settles O33: the stop is that of the `PAD`, which `DIGEST` issues after its `INIT`. -/
theorem unreadableMessageStops : Obligations.UnreadableMessageStops := by
  intro s hl hf hm
  refine ⟨fun he => (unlessError_running he).trans (padOp_of_unreadable hl hf hm), ?_⟩
  show digestOp s = _
  rw [digestOp, padOp_of_unreadable (s := s.initialise) hl hf hm, andThen_refused]

/-! ### Every command completes -/

theorem padOp_completes {s : State} (hm : messageReadable s) : ∃ t, padOp s = .next t := by
  obtain ⟨bs, hbs⟩ := Option.isSome_iff_exists.mp ((messageReadable_iff s).mp hm)
  rcases Int.lt_or_le s.len 0 with hl | hl
  · exact ⟨_, padOp_eq_next.mpr (.inl ⟨hl, rfl⟩)⟩
  · cases hf : fitsBuffer s.cfg (paddedLen s.len.toNat) with
    | false => exact ⟨_, padOp_eq_next.mpr (.inr (.inl ⟨hl, hf, rfl⟩))⟩
    | true => exact ⟨_, padOp_eq_next.mpr (.inr (.inr ⟨hl, hf, bs, hbs, rfl⟩))⟩

/-- While a block is left, `PBUF` holds all its bytes (rules R35, R98). -/
theorem readBytes_block_of_inv {s : State} (h : s.Inv) (hb : blockLeft s = true) :
    ∃ block, s.pbuf.readBytes (rateBytes * s.blk) rateBytes = some block := by
  obtain ⟨hp, hlt⟩ := blockLeft_iff.mp hb
  refine Option.isSome_iff_exists.mp (readBytes_isSome.mpr fun j hj => h.padHeld hp _ ?_)
  have hle := (Nat.le_div_iff_mul_le (by decide : 0 < rateBytes)).mp (Nat.succ_le_of_lt hlt)
  calc rateBytes * s.blk + j < rateBytes * s.blk + rateBytes := Nat.add_lt_add_left hj _
    _ = (s.blk + 1) * rateBytes := by ring
    _ ≤ s.plen := hle

theorem xorblkOp_completes {s : State} (h : s.Inv) : ∃ t, xorblkOp s = .next t := by
  cases hb : blockLeft s with
  | false => exact ⟨_, xorblkOp_eq_next.mpr (.inl ⟨hb, rfl⟩)⟩
  | true =>
    obtain ⟨block, hblk⟩ := readBytes_block_of_inv h hb
    exact ⟨_, xorblkOp_eq_next.mpr (.inr ⟨hb, block, hblk, rfl⟩)⟩

theorem absorbOp_completes {s : State} (h : s.Inv) : ∃ t, absorbOp s = .next t := by
  cases hb : blockLeft s with
  | false => exact ⟨_, absorbOp_eq_next.mpr (.inl ⟨hb, rfl⟩)⟩
  | true =>
    obtain ⟨block, hblk⟩ := readBytes_block_of_inv h hb
    exact ⟨_, absorbOp_eq_next.mpr (.inr ⟨hb, block, hblk, rfl⟩)⟩

theorem squeezeOp_completes (s : State) : ∃ t, squeezeOp s = .next t := by
  cases hb : allAbsorbed s with
  | false => exact ⟨_, squeezeOp_eq_next.mpr (.inl ⟨hb, rfl⟩)⟩
  | true => exact ⟨_, squeezeOp_eq_next.mpr (.inr ⟨hb, rfl⟩)⟩

/-- A `DIGEST` whose `PAD` raises ends with it (rule R103). -/
theorem digestOp_of_raise {s t : State} (h : padOp s.initialise = .next t) (he : t.errf = true) :
    digestOp s = .next t := by
  rw [digestOp, h, andThen_next, if_pos he]

/-- A `DIGEST` whose `PAD` succeeds absorbs every block and squeezes (rule R103). -/
theorem digestOp_of_absorbed {s u : State} {bs : List Byte} (h : padOp s.initialise = .next (padWrites s.initialise bs))
    (hu : absorbMany (padWrites s.initialise bs).nblk (padWrites s.initialise bs) = .next u) :
    digestOp s = .next (squeezeWrites u) := by
  have hframe := absorbMany_next hu rfl (by simp)
  have hsq : squeezeOp u = .next (squeezeWrites u) := by
    refine squeezeOp_of_allAbsorbed ?_ ?_
    · rw [hframe]; rfl
    · rw [hframe, padWrites_blk, Nat.zero_add]; rfl
  rw [digestOp, h, andThen_next, if_neg (by simp), padWrites_blk, Nat.sub_zero, hu, andThen_next, hsq]

theorem digestOp_completes {s : State} (h : s.Inv) (hm : messageReadable s) : ∃ t, digestOp s = .next t := by
  obtain ⟨t, ht⟩ := padOp_completes (s := s.initialise) hm
  rcases padOp_eq_next.mp ht with ⟨_, rfl⟩ | ⟨_, _, rfl⟩ | ⟨_, hf, bs, hbs, rfl⟩
  · exact ⟨_, digestOp_of_raise ht rfl⟩
  · exact ⟨_, digestOp_of_raise ht rfl⟩
  · rw [← (readBytes_eq_some.mp hbs).1] at hf
    have hinv := padWrites_inv (initialise_inv h) rfl hf
    obtain ⟨u, hu⟩ := absorbMany_completes (n := (padWrites s.initialise bs).nblk) rfl (by simp) (hinv.padHeld rfl)
    exact ⟨_, digestOp_of_absorbed ht hu⟩

/-- The hold of rule R117 is itself a completion. -/
theorem unlessError_completes {s : State} {k : Result} (hk : ∃ t, k = .next t) : ∃ t, unlessError s k = .next t := by
  obtain ⟨t, rfl⟩ := hk
  cases he : s.errf with
  | true => exact ⟨s, unlessError_held he⟩
  | false => exact ⟨t, unlessError_running he⟩

/-- A command with a round index completes, legal or not (log 13). -/
theorem checked_completes (s u : State) (r : RoundIndex) :
    ∃ t, (if roundIndexLegal r then unlessError s (.next u) else illegalCommand s) = .next t := by
  split
  · exact unlessError_completes ⟨_, rfl⟩
  · exact unlessError_completes ⟨_, rfl⟩

/-- Settles O49, by the command. -/
theorem everyCommandCompletes : Obligations.EveryCommandCompletes := by
  intro i s h hm
  cases i with
  | rcseed | theta | rho | pi | chi | iota | keccakf => exact unlessError_completes ⟨_, rfl⟩
  | rcnext =>
    refine unlessError_completes ?_
    split
    · exact ⟨_, rfl⟩
    · exact ⟨_, rfl⟩
  | rcld r => exact checked_completes s _ r
  | round r => exact checked_completes s _ r
  | init => exact ⟨_, rfl⟩
  | pad => exact unlessError_completes (padOp_completes (hm (.inl rfl)))
  | xorblk => exact unlessError_completes (xorblkOp_completes h)
  | absorb => exact unlessError_completes (absorbOp_completes h)
  | squeeze => exact unlessError_completes (squeezeOp_completes s)
  | digest => exact digestOp_completes h (hm (.inr rfl))

/-! ### `DIGEST` again -/

theorem filter_filter_of_disjoint (m : Memory) {p q : Host.Cell → Bool} (h : ∀ c, p c = true → q c = false) :
    (m.filter p).filter q = [] :=
  List.filter_eq_nil_iff.mpr fun c hc => by simp [h c (List.mem_filter.mp hc).2]

/-- A store leaves the entries below it as they were. -/
theorem filter_store_below (m : Memory) (a : Nat) (bs : List Byte) :
    (m.store a bs).filter (fun c => decide (c.1 < a)) = m.filter fun c => decide (c.1 < a) := by
  have hmid : (cellsFrom a bs).filter (fun c => decide (c.1 < a)) = [] :=
    List.filter_eq_nil_iff.mpr fun _ hc => by simp [(mem_cellsFrom hc).1]
  have hhi := filter_filter_of_disjoint m (p := fun c => decide (a + bs.length ≤ c.1)) (q := fun c => decide (c.1 < a))
    fun c => by simp only [decide_eq_true_eq, decide_eq_false_iff_not]; omega
  rw [Memory.store, List.filter_append, List.filter_append, hmid, hhi]
  simp

/-- A store leaves the entries above it as they were. -/
theorem filter_store_above (m : Memory) (a : Nat) (bs : List Byte) :
    (m.store a bs).filter (fun c => decide (a + bs.length ≤ c.1)) =
      m.filter fun c => decide (a + bs.length ≤ c.1) := by
  have hmid : (cellsFrom a bs).filter (fun c => decide (a + bs.length ≤ c.1)) = [] :=
    List.filter_eq_nil_iff.mpr fun _ hc => by simp [(mem_cellsFrom hc).2]
  have hlo := filter_filter_of_disjoint m (p := fun c => decide (c.1 < a)) (q := fun c => decide (a + bs.length ≤ c.1))
    fun c => by simp only [decide_eq_true_eq, decide_eq_false_iff_not]; omega
  rw [Memory.store, List.filter_append, List.filter_append, hmid, hlo]
  simp

/-- Storing the same bytes again changes nothing. -/
theorem store_store_same (m : Memory) (a : Nat) (bs : List Byte) : (m.store a bs).store a bs = m.store a bs := by
  rw [Memory.store, filter_store_below, filter_store_above, ← Memory.store]

/-- The permutation neither reads nor writes `DIG`. -/
theorem keccakOp_with_dig (s : State) (d : Memory) : keccakOp { s with dig := d } = { keccakOp s with dig := d } := by
  rw [keccakOp_eq, keccakOp_eq, rcLoadOp, rcLoadOp]
  generalize keccakF s.lanes = A, lfsrAdvance (rcBits * (23 + 1)) lfsrSeed = l, rcOf 23 = c, BitVec.ofNat 5 (23 + 1) = n
  rfl

/-- `ABSORB` neither reads nor writes `DIG`. -/
theorem absorbOp_with_dig {s t : State} (d : Memory) (h : absorbOp s = .next t) :
    absorbOp { s with dig := d } = .next { t with dig := d } := by
  rcases absorbOp_eq_next.mp h with ⟨hb, rfl⟩ | ⟨hb, block, hblk, rfl⟩
  · exact absorbOp_eq_next.mpr (.inl ⟨hb, rfl⟩)
  · exact absorbOp_eq_next.mpr (.inr ⟨hb, block, hblk, (keccakOp_with_dig _ d).symm⟩)

theorem absorbMany_with_dig {n : Nat} {s t : State} (d : Memory) (h : absorbMany n s = .next t) :
    absorbMany n { s with dig := d } = .next { t with dig := d } := by
  induction n generalizing s with
  | zero => cases h; rfl
  | succ n ih =>
    obtain ⟨u, hu, h⟩ := andThen_eq_next.mp h
    rw [absorbMany, absorbOp_with_dig d hu, andThen_next]
    exact ih h

/-- `DIGEST` sees a state only as its `INIT` leaves it (rule R105). -/
theorem digestOp_congr {s t : State} (h : s.initialise = t.initialise) : digestOp s = digestOp t := by
  rw [digestOp, digestOp, h]

/-- After a `DIGEST` that succeeded, its `PAD` again writes what it wrote before; only `DIG` differs. -/
theorem padWrites_after_digest {s u : State} {bs : List Byte}
    (hu : u = { (padWrites s.initialise bs) with
                lanes := u.lanes, lfsr := u.lfsr, rc := u.rc, rnd := u.rnd, blk := (padWrites s.initialise bs).nblk }) :
    padWrites (squeezeWrites u).initialise bs =
      { padWrites s.initialise bs with dig := (squeezeWrites u).dig } := by
  have hpbuf : (s.pbuf.store 0 (padMessage bs)).store 0 (padMessage bs) = s.pbuf.store 0 (padMessage bs) :=
    store_store_same _ _ _
  rw [hu]
  simp [padWrites, squeezeWrites, State.initialise, hpbuf]

/-- Squeezing the same lanes again changes nothing. -/
theorem squeezeWrites_with_own_dig (u : State) :
    squeezeWrites { u with dig := (squeezeWrites u).dig } = squeezeWrites u := by
  simp [squeezeWrites, store_store_same]

/-- Settles O41: a failing `DIGEST` leaves what `INIT` makes the same again; a successful one leaves a state whose `PAD`
and `ABSORB`s differ from its own in `DIG` only, which `SQUEEZE` then overwrites alike. -/
theorem digestIdempotent : Obligations.DigestIdempotent := by
  intro s t h
  show digestOp t = .next t
  rcases digestOp_eq_next h with ⟨_, rfl⟩ | ⟨_, _, rfl⟩ | ⟨hl, hf, bs, u, hbs, ha, hu, rfl⟩
  · exact (digestOp_congr rfl).trans h
  · exact (digestOp_congr rfl).trans h
  · have hpad : padOp (squeezeWrites u).initialise = .next (padWrites (squeezeWrites u).initialise bs) := by
      rw [hu]
      exact padOp_eq_next.mpr (.inr (.inr ⟨hl, hf, bs, hbs, rfl⟩))
    have habsorb := absorbMany_with_dig (squeezeWrites u).dig ha
    rw [← padWrites_after_digest hu] at habsorb
    have hdig := digestOp_of_absorbed hpad habsorb
    rwa [squeezeWrites_with_own_dig] at hdig

end Sys2Proof.Machine
end

section
/-! PROOFS. Command words: which command a word is by its fields as numbers, that decoding and encoding undo each other,
how many words are legal, and what a step does with a presented word. -/

namespace Sys2Proof.Machine

/-! ### The fields of a word, and the commands of the two formats -/

theorem opcodeField_toNat (w : CmdWord) : (opcodeField w).toNat = w.toNat / 256 := by
  have := w.isLt
  rw [opcodeField, BitVec.extractLsb'_toNat, Nat.shiftRight_eq_div_pow]
  omega

theorem lowByteField_toNat (w : CmdWord) : (lowByteField w).toNat = w.toNat % 256 := by
  rw [lowByteField, BitVec.extractLsb'_toNat, Nat.shiftRight_zero]

theorem reservedField_toNat (w : CmdWord) : (reservedField w).toNat = w.toNat / 32 % 8 := by
  rw [reservedField, BitVec.extractLsb'_toNat, Nat.shiftRight_eq_div_pow]

theorem roundField_toNat (w : CmdWord) : (roundField w).toNat = w.toNat % 32 := by
  rw [roundField, BitVec.extractLsb'_toNat, Nat.shiftRight_zero]

theorem opcodeField_eq {w : CmdWord} {n : Nat} (h : w.toNat / 256 = n) : opcodeField w = BitVec.ofNat 8 n := by
  rw [← h, ← opcodeField_toNat, BitVec.ofNat_toNat, BitVec.setWidth_eq]

theorem roundField_eq (w : CmdWord) : roundField w = BitVec.ofNat 5 (w.toNat % 32) := by
  rw [← roundField_toNat, BitVec.ofNat_toNat, BitVec.setWidth_eq]

/-- Every command is of one of the two formats (rules R53, R55). -/
theorem instr_format (i : Instr) : (∃ p ∈ formatZ, i = p.2) ∨ ∃ p ∈ formatR, ∃ r, i = p.2 r := by
  cases i with
  | rcld r => exact .inr ⟨(0x13, .rcld), by simp [formatR], r, rfl⟩
  | round r => exact .inr ⟨(0x25, .round), by simp [formatR], r, rfl⟩
  | _ => exact .inl (by decide)

theorem formatZ_wellFormed : ∀ p ∈ formatZ, p.2.wellFormed = true := by decide

theorem formatR_wellFormed {p : Nat × (RoundIndex → Instr)} (hp : p ∈ formatR) (r : RoundIndex) :
    (p.2 r).wellFormed = roundIndexLegal r := by
  rcases List.mem_pair.mp hp with rfl | rfl
  · rfl
  · rfl

/-- No opcode is of both formats. -/
theorem formatZ_disjoint_formatR : ∀ a ∈ formatZ.map Prod.fst, a ∉ formatR.map Prod.fst := by decide

theorem encode_formatZ_toNat : ∀ p ∈ formatZ, (encode p.2).toNat = 256 * p.1 := by decide

theorem wordR_toNat (op : BitVec 8) (r : RoundIndex) : (wordR op r).toNat = 256 * op.toNat + r.toNat := by
  have hr : r.toNat < 2 ^ 8 := r.isLt.trans (by decide)
  rw [wordR, BitVec.toNat_append, toNat_zero_append, ← Nat.shiftLeft_add_eq_or_of_lt hr, Nat.shiftLeft_eq, Nat.mul_comm]

theorem encode_formatR_toNat {p : Nat × (RoundIndex → Instr)} (hp : p ∈ formatR) (r : RoundIndex) :
    (encode (p.2 r)).toNat = 256 * p.1 + r.toNat := by
  rcases List.mem_pair.mp hp with rfl | rfl
  · exact wordR_toNat 0x13 r
  · exact wordR_toNat 0x25 r

/-! ### The decoder -/

theorem opcodeRow_formatZ : ∀ p ∈ formatZ, opcodeRow (BitVec.ofNat 8 p.1) = some (.z p.2) := by decide

theorem opcodeRow_unassigned {op : BitVec 8} (hz : op.toNat ∉ formatZ.map Prod.fst)
    (hr : op.toNat ∉ formatR.map Prod.fst) : opcodeRow op = none := by
  simp only [formatZ, formatR, List.map_cons, List.map_nil, List.cons_append, List.nil_append,
    List.mem_cons, List.not_mem_nil, not_or] at hz hr
  simp [opcodeRow, ← BitVec.toNat_inj, hz, hr]

theorem lowByteField_eq_zero {w : CmdWord} (h : w.toNat % 256 = 0) : lowByteField w = 0 :=
  BitVec.eq_of_toNat_eq ((lowByteField_toNat w).trans h)

theorem reservedField_eq_zero {w : CmdWord} (h : w.toNat / 32 % 8 = 0) : reservedField w = 0 :=
  BitVec.eq_of_toNat_eq ((reservedField_toNat w).trans h)

theorem decodeZ_of_zero {w : CmdWord} (h : w.toNat % 256 = 0) (i : Instr) : decodeZ w i = .command i :=
  if_pos (lowByteField_eq_zero h)

theorem decodeZ_of_nonzero {w : CmdWord} (h : w.toNat % 256 ≠ 0) (i : Instr) : decodeZ w i = .illegal .mustBeZero :=
  if_neg fun hz => h ((lowByteField_toNat w).symm.trans (congrArg BitVec.toNat hz))

theorem decodeR_of_nonzero {w : CmdWord} (h : w.toNat / 32 % 8 ≠ 0) (mk : RoundIndex → Instr) :
    decodeR w mk = .illegal .mustBeZero :=
  if_pos fun hz => h ((reservedField_toNat w).symm.trans (congrArg BitVec.toNat hz))

theorem decodeR_of_zero {w : CmdWord} (h : w.toNat / 32 % 8 = 0) (mk : RoundIndex → Instr) :
    decodeR w mk = if w.toNat % 32 < 24 then .command (mk (BitVec.ofNat 5 (w.toNat % 32))) else .illegal .roundIndex := by
  have hlegal : roundIndexLegal (roundField w) = true ↔ w.toNat % 32 < 24 := by
    rw [roundIndexLegal_iff, roundField_toNat]
    exact Iff.rfl
  rw [← roundField_eq]
  exact (if_neg (not_not_intro (reservedField_eq_zero h))).trans (if_congr hlegal rfl rfl)

/-- The opcode picks the format, or makes the word illegal (rules R55, R56). -/
theorem decode_by_opcode (w : CmdWord) :
    (∀ p ∈ formatZ, w.toNat / 256 = p.1 → decode w = decodeZ w p.2) ∧
    (∀ p ∈ formatR, w.toNat / 256 = p.1 → decode w = decodeR w p.2) ∧
    (w.toNat / 256 ∉ formatZ.map Prod.fst → w.toNat / 256 ∉ formatR.map Prod.fst →
      decode w = .illegal .unassignedOpcode) := by
  unfold decode
  refine ⟨fun p hp hop => ?_, fun p hp hop => ?_, fun hz hr => ?_⟩
  · rw [opcodeField_eq hop, opcodeRow_formatZ p hp]
  · rw [opcodeField_eq hop]
    rcases List.mem_pair.mp hp with rfl | rfl
    · rfl
    · rfl
  · rw [← opcodeField_toNat] at hz hr
    rw [opcodeRow_unassigned hz hr]

/-- A word is the command of format Z its fields as numbers say (rule R56). -/
theorem decode_command_formatZ {w : CmdWord} {p : Nat × Instr} (hp : p ∈ formatZ) (hop : w.toNat / 256 = p.1)
    (hlow : w.toNat % 256 = 0) : decode w = .command p.2 := by
  obtain ⟨hformat, -, -⟩ := decode_by_opcode w
  rw [hformat p hp hop, decodeZ_of_zero hlow]

/-- A word is the command of format R its fields as numbers say (rule R56). -/
theorem decode_command_formatR {w : CmdWord} {p : Nat × (RoundIndex → Instr)} (hp : p ∈ formatR)
    (hop : w.toNat / 256 = p.1) (hmbz : w.toNat / 32 % 8 = 0) (hr : w.toNat % 32 < 24) :
    decode w = .command (p.2 (BitVec.ofNat 5 (w.toNat % 32))) := by
  obtain ⟨-, hformat, -⟩ := decode_by_opcode w
  rw [hformat p hp hop, decodeR_of_zero hmbz, if_pos hr]

/-- Only those words are commands (rule R56). -/
theorem decode_eq_command {w : CmdWord} {i : Instr} (h : decode w = .command i) :
    (∃ p ∈ formatZ, w.toNat / 256 = p.1 ∧ w.toNat % 256 = 0 ∧ i = p.2) ∨
    (∃ p ∈ formatR, w.toNat / 256 = p.1 ∧ w.toNat / 32 % 8 = 0 ∧ w.toNat % 32 < 24 ∧
      i = p.2 (BitVec.ofNat 5 (w.toNat % 32))) := by
  obtain ⟨hformatZ, hformatR, hunassigned⟩ := decode_by_opcode w
  by_cases hz : w.toNat / 256 ∈ formatZ.map Prod.fst
  · obtain ⟨p, hp, hop⟩ := List.mem_map.mp hz
    rw [hformatZ p hp hop.symm] at h
    by_cases hlow : w.toNat % 256 = 0
    · rw [decodeZ_of_zero hlow] at h
      cases h
      exact .inl ⟨p, hp, hop.symm, hlow, rfl⟩
    · rw [decodeZ_of_nonzero hlow] at h
      cases h
  by_cases hr : w.toNat / 256 ∈ formatR.map Prod.fst
  · obtain ⟨p, hp, hop⟩ := List.mem_map.mp hr
    rw [hformatR p hp hop.symm] at h
    by_cases hmbz : w.toNat / 32 % 8 = 0
    · rw [decodeR_of_zero hmbz] at h
      split at h
      next hlt =>
        cases h
        exact .inr ⟨p, hp, hop.symm, hmbz, hlt, rfl⟩
      next => cases h
    · rw [decodeR_of_nonzero hmbz] at h
      cases h
  · rw [hunassigned hz hr] at h
    cases h

/-- Settles O1, by the format of the command. -/
theorem decodeOfEncode : Obligations.DecodeOfEncode := by
  intro i hi
  rcases instr_format i with ⟨p, hp, rfl⟩ | ⟨p, hp, r, rfl⟩
  · have hn := encode_formatZ_toNat p hp
    exact decode_command_formatZ hp (by omega) (by omega)
  · have hn := encode_formatR_toNat hp r
    rw [formatR_wellFormed hp, roundIndexLegal_iff] at hi
    have hr : r.toNat < 24 := hi
    have hfield : (encode (p.2 r)).toNat % 32 = r.toNat := by omega
    have hd := decode_command_formatR hp (w := encode (p.2 r)) (by omega) (by omega) (by omega)
    rwa [hfield, BitVec.ofNat_toNat, BitVec.setWidth_eq] at hd

/-- Settles O2, by the format of the word. -/
theorem encodeOfDecode : Obligations.EncodeOfDecode := by
  intro w i h
  rcases decode_eq_command h with ⟨p, hp, hop, hlow, rfl⟩ | ⟨p, hp, hop, hmbz, hr, rfl⟩
  · have hn := encode_formatZ_toNat p hp
    exact ⟨formatZ_wellFormed p hp, BitVec.eq_of_toNat_eq (by omega)⟩
  · have hn := encode_formatR_toNat hp (roundField w)
    rw [← roundField_eq, formatR_wellFormed hp, roundIndexLegal_iff]
    rw [roundField_toNat] at hn ⊢
    exact ⟨hr, BitVec.eq_of_toNat_eq (by omega)⟩

/-- Settles O3, by evaluation of the ten words. -/
theorem specWordsDecode : Obligations.SpecWordsDecode := by
  unfold Obligations.SpecWordsDecode
  decide

/-! ### Illegal words, and the number of legal ones -/

theorem decode_of_illegalFields {w : CmdWord} (h : illegalFields w) : ∃ why, decode w = .illegal why := by
  cases hd : decode w with
  | illegal why => exact ⟨why, rfl⟩
  | command i =>
    exfalso
    rcases decode_eq_command hd with ⟨p, hp, hop, hlow, _⟩ | ⟨p, hp, hop, hmbz, hr, _⟩
    · have hz : w.toNat / 256 ∈ formatZ.map Prod.fst := List.mem_map.mpr ⟨p, hp, hop.symm⟩
      rcases h with ⟨h, _⟩ | ⟨_, h⟩ | ⟨h, _⟩
      · exact h hz
      · exact h hlow
      · exact formatZ_disjoint_formatR _ hz h
    · have hm : w.toNat / 256 ∈ formatR.map Prod.fst := List.mem_map.mpr ⟨p, hp, hop.symm⟩
      rcases h with ⟨_, h⟩ | ⟨h, _⟩ | ⟨_, h⟩
      · exact h hm
      · exact formatZ_disjoint_formatR _ h hm
      · omega

/-- The legal words of format Z. -/
def legalWordsZ : List CmdWord := formatZ.map fun p => encode p.2

/-- The legal words of format R. -/
def legalWordsR : List CmdWord :=
  formatR.flatMap fun p => (List.range 24).map fun r => encode (p.2 (BitVec.ofNat 5 r))

theorem mem_legalWordsZ {w : CmdWord} :
    w ∈ legalWordsZ ↔ w.toNat / 256 ∈ formatZ.map Prod.fst ∧ ∃ i, decode w = .command i := by
  constructor
  · intro h
    obtain ⟨p, hp, rfl⟩ := List.mem_map.mp h
    have hn := encode_formatZ_toNat p hp
    exact ⟨List.mem_map.mpr ⟨p, hp, by omega⟩, p.2, decodeOfEncode _ (formatZ_wellFormed p hp)⟩
  · rintro ⟨hz, i, hd⟩
    rcases decode_eq_command hd with ⟨p, hp, _, _, rfl⟩ | ⟨p, hp, hop, _⟩
    · exact List.mem_map.mpr ⟨p, hp, (encodeOfDecode w _ hd).2⟩
    · exact absurd (List.mem_map.mpr ⟨p, hp, hop.symm⟩) (formatZ_disjoint_formatR _ hz)

theorem mem_legalWordsR {w : CmdWord} :
    w ∈ legalWordsR ↔ w.toNat / 256 ∈ formatR.map Prod.fst ∧ ∃ i, decode w = .command i := by
  constructor
  · intro h
    obtain ⟨p, hp, h⟩ := List.mem_flatMap.mp h
    obtain ⟨r, hr, rfl⟩ := List.mem_map.mp h
    have hn := encode_formatR_toNat hp (BitVec.ofNat 5 r)
    have hlt : (BitVec.ofNat 5 r).toNat < 24 :=
      (BitVec.toNat_ofNat r 5 ▸ Nat.mod_le r 32).trans_lt (List.mem_range.mp hr)
    refine ⟨List.mem_map.mpr ⟨p, hp, by omega⟩, p.2 _, decodeOfEncode _ ?_⟩
    rw [formatR_wellFormed hp, roundIndexLegal_iff]
    exact hlt
  · rintro ⟨hz, i, hd⟩
    rcases decode_eq_command hd with ⟨p, hp, hop, _⟩ | ⟨p, hp, _, _, hr, rfl⟩
    · exact absurd hz (formatZ_disjoint_formatR _ (List.mem_map.mpr ⟨p, hp, hop.symm⟩))
    · exact List.mem_flatMap.mpr ⟨p, hp, List.mem_map.mpr ⟨_, List.mem_range.mpr hr, (encodeOfDecode w _ hd).2⟩⟩

/-- Each list is in increasing order, and no opcode is of both formats. -/
theorem legalWords_nodup : (legalWordsZ ++ legalWordsR).Nodup := by
  have hz : legalWordsZ.Pairwise (· < ·) := List.isChain_iff_pairwise.mp (by decide)
  have hr : legalWordsR.Pairwise (· < ·) := List.isChain_iff_pairwise.mp (by decide)
  refine List.nodup_append'.mpr ⟨hz.imp ?_, hr.imp ?_, fun w hwz hwr => ?_⟩
  · exact fun h => BitVec.ne_of_lt h
  · exact fun h => BitVec.ne_of_lt h
  · rw [mem_legalWordsZ] at hwz
    rw [mem_legalWordsR] at hwr
    exact formatZ_disjoint_formatR _ hwz.1 hwr.1

theorem mem_legalWords {w : CmdWord} : w ∈ legalWordsZ ++ legalWordsR ↔ ∃ i, decode w = .command i := by
  rw [List.mem_append, mem_legalWordsZ, mem_legalWordsR]
  constructor
  · rintro (⟨_, h⟩ | ⟨_, h⟩)
    · exact h
    · exact h
  · rintro ⟨i, hd⟩
    rcases decode_eq_command hd with ⟨p, hp, hop, _⟩ | ⟨p, hp, hop, _⟩
    · exact .inl ⟨List.mem_map.mpr ⟨p, hp, hop.symm⟩, i, hd⟩
    · exact .inr ⟨List.mem_map.mpr ⟨p, hp, hop.symm⟩, i, hd⟩

/-- Settles O4, by the fields of a word, and with the words of the commands as the lists to count. -/
theorem decodingByFields : Obligations.DecodingByFields := by
  refine ⟨fun w => ⟨fun p hp hop hlow => ?_, fun p hp hop hmbz hr => ?_, decode_of_illegalFields⟩, ?_⟩
  · exact decode_command_formatZ hp hop hlow
  · exact decode_command_formatR hp hop hmbz (Nat.lt_succ_of_le hr)
  · exact ⟨legalWordsZ, legalWordsR, rfl, rfl, rfl, legalWords_nodup, fun _ => mem_legalWordsZ,
      fun _ => mem_legalWordsR, fun _ => mem_legalWords⟩

/-! ### A presented word -/

theorem presentWord_of_command {w : CmdWord} {i : Instr} (h : decode w = .command i) (s : State) :
    presentWord w s = exec i s := by
  rw [presentWord, h]

theorem presentWord_of_illegalFields {w : CmdWord} (h : illegalFields w) (s : State) :
    presentWord w s = illegalCommand s := by
  obtain ⟨why, hd⟩ := decode_of_illegalFields h
  rw [presentWord, hd]

/-- Settles O5: the host's next action is the word, and the word is the command. -/
theorem stepRunsDecodedCommand : Obligations.StepRunsDecodedCommand := by
  refine ⟨fun s rest w i hs hd => ?_, fun s i hi => ?_⟩
  · exact (step_of_action hs).trans (presentWord_of_command hd _)
  · have hword : BitVec.ofNat 16 ((encode i).toNat % 2 ^ 16) = encode i := by
      rw [Nat.mod_eq_of_lt (encode i).isLt, BitVec.ofNat_toNat, BitVec.setWidth_eq]
    have hs : (s.withFetchWord 16 (encode i).toNat).host = .command (encode i) :: s.host := by
      rw [State.withFetchWord, hword]
    exact (step_of_action hs).trans (presentWord_of_command (decodeOfEncode i hi) s)

/-- Settles O6: the word is an illegal one, and the hold decides whether it raises. -/
theorem illegalWordRaisesErrCmd : Obligations.IllegalWordRaisesErrCmd := by
  intro s rest w hs hw
  have hstep : step s = illegalCommand (s.withHost rest) :=
    (step_of_action hs).trans (presentWord_of_illegalFields hw _)
  rw [hstep]
  exact ⟨fun he => unlessError_running (s := s.withHost rest) he, fun he => unlessError_held (s := s.withHost rest) he⟩

end Sys2Proof.Machine
end

section
/-! PROOFS. A sequence of commands in the error state has no effect, and `DIGEST` ends as the program that writes it
out: `INIT`, `PAD`, an `ABSORB` for each block, `SQUEEZE`. -/

namespace Sys2Proof.Machine

/-! ### The error state -/

/-- A command with a round index has no effect in the error state, legal or not (rule R117; log 13). -/
theorem checked_held {s : State} (h : s.errf = true) (r : RoundIndex) (k : Result) :
    (if roundIndexLegal r then unlessError s k else illegalCommand s) = .next s := by
  split
  · exact unlessError_held h
  · exact unlessError_held h

/-- In the error state a command other than `INIT` and `DIGEST` has no effect (rule R117). -/
theorem exec_held {i : Instr} {s : State} (h : s.errf = true) (hi : i ≠ .init) (hd : i ≠ .digest) :
    exec i s = .next s := by
  cases i with
  | init => exact absurd rfl hi
  | digest => exact absurd rfl hd
  | rcld r => exact checked_held h r _
  | round r => exact checked_held h r _
  | _ => exact unlessError_held h

theorem execAll_held {is : List Instr} {s : State} (h : s.errf = true) (his : ∀ i ∈ is, i ≠ .init ∧ i ≠ .digest) :
    execAll is s = .next s := by
  induction is with
  | nil => rfl
  | cons i is ih =>
    obtain ⟨⟨hi, hd⟩, his⟩ := List.forall_mem_cons.mp his
    rw [execAll, exec_held h hi hd, andThen_next]
    exact ih his

/-! ### `DIGEST` written out -/

/-- `nblk(n)` is `n / 136` rounded up (rule R94). -/
theorem blockCount_eq (n : Nat) : blockCount n = (n + 135) / 136 := by
  unfold blockCount paddedLen rateBytes
  split <;> omega

theorem execAll_cons (i : Instr) (is : List Instr) (s : State) : execAll (i :: is) s = andThen (exec i s) (execAll is) :=
  rfl

/-- A sequence of one command ends as the command does. -/
theorem execAll_singleton (i : Instr) (s : State) : execAll [i] s = exec i s := by
  rw [execAll_cons]
  cases exec i s <;> rfl

/-- With `n` blocks left, the command `ABSORB` issued `n` times is never held and never raises. -/
theorem execAll_replicate_absorb {n : Nat} {s : State} (he : s.errf = false) (hp : s.pvalid = true)
    (hn : s.blk + n ≤ s.nblk) : execAll (List.replicate n .absorb) s = absorbMany n s := by
  induction n generalizing s with
  | zero => rfl
  | succ n ih =>
    have hexec : exec .absorb s = absorbOp s := unlessError_running he
    rw [List.replicate_succ, execAll_cons, hexec, absorbMany]
    cases hu : absorbOp s with
    | fault f => rfl
    | refused q => rfl
    | next u =>
      have hone : absorbMany 1 s = .next u := by rw [absorbMany, hu]; rfl
      have hframe := absorbMany_next hone hp (by omega)
      rw [andThen_next, andThen_next]
      refine ih ?_ ?_ ?_
      · rw [hframe]; exact he
      · rw [hframe]; exact hp
      · rw [hframe]; show s.blk + 1 + n ≤ s.nblk; omega

/-- After a `PAD` that succeeds, the absorbing and the squeezing of `DIGEST` are the commands issued one by one. -/
theorem execAll_absorb_squeeze {n : Nat} {s : State} (he : s.errf = false) (hp : s.pvalid = true)
    (hn : s.blk + n ≤ s.nblk) :
    execAll (List.replicate n Instr.absorb ++ [Instr.squeeze]) s = andThen (absorbMany n s) squeezeOp := by
  rw [execAll_append, execAll_replicate_absorb he hp hn]
  cases hu : absorbMany n s with
  | fault f => rfl
  | refused q => rfl
  | next u =>
    have hrun : u.errf = false := by rw [absorbMany_next hu hp hn]; exact he
    rw [andThen_next, andThen_next, execAll_singleton]
    exact unlessError_running hrun

/-- After a `PAD` that raises, none of those commands has an effect. -/
theorem execAll_absorb_squeeze_held {n : Nat} {s : State} (h : s.errf = true) :
    execAll (List.replicate n Instr.absorb ++ [Instr.squeeze]) s = .next s := by
  refine execAll_held h fun i hi => ?_
  rcases List.mem_append.mp hi with hi | hi
  · rw [List.eq_of_mem_replicate hi]; decide
  · rw [List.mem_singleton.mp hi]; decide

/-- A program that begins with `INIT` and `PAD` stops as its `PAD` stops, or goes on from what that leaves. -/
theorem execAll_init_pad (is : List Instr) (s : State) :
    execAll (.init :: .pad :: is) s = andThen (padOp s.initialise) (execAll is) := by
  have hinit : exec .init s = .next s.initialise := rfl
  have hpad : exec .pad s.initialise = padOp s.initialise := unlessError_running (s := s.initialise) rfl
  rw [execAll_cons, hinit, andThen_next, execAll_cons, hpad]

/-- Settles O39, by what the `PAD` does: a stop stops both; a raise ends `DIGEST` and holds every command that follows;
and after a success the number of `ABSORB`s is the number of blocks. -/
theorem digestExpansion : Obligations.DigestExpansion := by
  intro s
  show digestOp s = _
  rw [execAll_init_pad]
  cases ht : padOp s.initialise with
  | fault f => rw [digestOp, ht, andThen_fault, andThen_fault]
  | refused q => rw [digestOp, ht, andThen_refused, andThen_refused]
  | next t =>
    rw [andThen_next]
    rcases padOp_eq_next.mp ht with ⟨_, rfl⟩ | ⟨_, _, rfl⟩ | ⟨_, _, bs, hbs, rfl⟩
    · rw [execAll_absorb_squeeze_held rfl]
      exact digestOp_of_raise ht rfl
    · rw [execAll_absorb_squeeze_held rfl]
      exact digestOp_of_raise ht rfl
    · have hlen : bs.length = s.len.toNat := (readBytes_eq_some.mp hbs).1
      have hblocks : (padWrites s.initialise bs).nblk = (s.len.toNat + 135) / 136 := by
        rw [← hlen, ← blockCount_eq]; rfl
      rw [digestOp, ht, andThen_next, if_neg (by simp), padWrites_blk, Nat.sub_zero, hblocks]
      exact (execAll_absorb_squeeze rfl rfl (by simp [hblocks])).symm

end Sys2Proof.Machine
end

section
/-! PROOFS. The round-constant generator: the LFSR and its period, one extraction bit by bit, the table of the constants,
and `RCSEED`, `RCNEXT` and `RCLD` as one run of the LFSR from the seed. -/

namespace Sys2Proof.Machine

/-! ### The LFSR -/

theorem getLsbD_seven (l : BitVec 8) : l.getLsbD 7 = decide (128 ≤ l.toNat) := BitVec.msb_eq_decide l

theorem lfsrStep_of_lt {l : BitVec 8} (h : l.toNat < 128) : (lfsrStep l).1 = l <<< 1 :=
  if_neg (by rw [getLsbD_seven, decide_eq_true_eq]; omega)

theorem lfsrStep_of_ge {l : BitVec 8} (h : 128 ≤ l.toNat) : (lfsrStep l).1 = (l <<< 1) ^^^ lfsrPoly :=
  if_pos (by rw [getLsbD_seven, decide_eq_true_eq]; exact h)

theorem lfsrStep_toNat (l : BitVec 8) :
    (lfsrStep l).1.toNat = if l.toNat < 128 then 2 * l.toNat else (2 * l.toNat - 256) ^^^ 0x71 := by
  have hdouble : (l <<< 1).toNat = 2 * l.toNat % 256 := by
    rw [BitVec.toNat_shiftLeft, Nat.shiftLeft_eq, Nat.mul_comm]
  split
  case isTrue h =>
    rw [lfsrStep_of_lt h, hdouble]
    omega
  case isFalse h =>
    have hmod : 2 * l.toNat % 256 = 2 * l.toNat - 256 := by omega
    rw [lfsrStep_of_ge (Nat.not_lt.mp h), BitVec.toNat_xor, hdouble, hmod]
    rfl

theorem lfsrStep_output (l : BitVec 8) : (lfsrStep l).2 = decide (l.toNat % 2 = 1) := by
  show l.getLsbD 0 = _
  rw [BitVec.getLsbD, Nat.testBit_zero]

/-- A doubled value is nonzero when the bit shifted out was 0, and odd after the XOR when it was 1. -/
theorem lfsrStep_ne_zero {l : BitVec 8} (h : l ≠ 0) : (lfsrStep l).1 ≠ 0 := by
  intro hzero
  rcases Nat.lt_or_ge l.toNat 128 with hl | hl
  · have hdouble : (lfsrStep l).1.toNat = 0 := congrArg BitVec.toNat hzero
    rw [lfsrStep_toNat, if_pos hl] at hdouble
    have hl0 : l.toNat = 0 := by omega
    exact h (BitVec.eq_of_toNat_eq hl0)
  · have hodd : (lfsrStep l).1.getLsbD 0 = true := by rw [lfsrStep_of_ge hl]; simp [lfsrPoly]
    rw [hzero] at hodd
    cases hodd

/-- `n` steps are the `n`-th iterate of one step, so the library's periods speak of them. -/
theorem lfsrAdvance_eq_iterate (n : Nat) (l : BitVec 8) : lfsrAdvance n l = (fun m => (lfsrStep m).1)^[n] l := by
  induction n generalizing l with
  | zero => rfl
  | succ n ih => rw [Function.iterate_succ_apply]; exact ih _

theorem lfsrAdvance_eq_self_iff (n : Nat) (l : BitVec 8) :
    lfsrAdvance n l = l ↔ Function.IsPeriodicPt (fun m => (lfsrStep m).1) n l := by
  rw [lfsrAdvance_eq_iterate]
  rfl

theorem dvd_of_proper_dvd_255 : ∀ d ∈ Nat.divisors 255, d ≠ 255 → d ∣ 15 ∨ d ∣ 51 ∨ d ∣ 85 := by decide

/-- The LFSR from the seed in strides of seven steps, those of one round: the seed, the column "`LFSR` after" of rule R66,
and that column carried on to step 252. -/
def lfsrStrides : List Byte :=
  lfsrSeed :: rcAfterTable ++ [0xFE, 0xBF, 0x53, 0x86, 0x4B, 0x28, 0x83, 0x29, 0x03, 0xF1, 0x19, 0x2E]

theorem lfsrStrides_succ :
    ∀ k < 36, lfsrAdvance rcBits (lfsrStrides.getD k 0) = lfsrStrides.getD (k + 1) 0 := by decide

theorem lfsrAdvance_stride {k : Nat} (hk : k ≤ 36) : lfsrAdvance (rcBits * k) lfsrSeed = lfsrStrides.getD k 0 := by
  induction k with
  | zero => rfl
  | succ k ih => rw [lfsrAdvance_succ_round, ih (Nat.le_of_lt hk), lfsrStrides_succ k hk]

/-- A run from the seed, by a stride it reaches and the `m` steps after that. -/
theorem lfsrAdvance_stride_add {k : Nat} (hk : k ≤ 36) (m : Nat) :
    lfsrAdvance (rcBits * k + m) 0x01 = lfsrAdvance m (lfsrStrides.getD k 0) :=
  (lfsrAdvance_add _ _ _).trans (congrArg (lfsrAdvance m) (lfsrAdvance_stride hk))

theorem lfsrAdvance_255_seed : lfsrAdvance 255 0x01 = 0x01 :=
  (lfsrAdvance_stride_add (k := 36) (by decide) 3).trans (by decide)

/-- A period below 255 would make a proper divisor of 255 a period, and with it 15, 51 or 85. -/
theorem lfsrAdvance_ne_seed {n : Nat} (hpos : 0 < n) (hlt : n < 255) : lfsrAdvance n 0x01 ≠ 0x01 := by
  intro hn
  have hgcd : Function.IsPeriodicPt (fun m => (lfsrStep m).1) (n.gcd 255) 0x01 :=
    ((lfsrAdvance_eq_self_iff n _).mp hn).gcd ((lfsrAdvance_eq_self_iff 255 _).mp lfsrAdvance_255_seed)
  have hmultiple (d : Nat) (hd : n.gcd 255 ∣ d) : lfsrAdvance d 0x01 = 0x01 :=
    (lfsrAdvance_eq_self_iff d _).mpr (hgcd.trans_dvd hd)
  have hproper : n.gcd 255 ≠ 255 := ((Nat.gcd_le_left 255 hpos).trans_lt hlt).ne
  have hmem : n.gcd 255 ∈ Nat.divisors 255 := Nat.mem_divisors.mpr ⟨Nat.gcd_dvd_right n 255, by decide⟩
  rcases dvd_of_proper_dvd_255 _ hmem hproper with hd | hd | hd
  · exact absurd ((lfsrAdvance_stride_add (k := 2) (by decide) 1).symm.trans (hmultiple 15 hd)) (by decide)
  · exact absurd ((lfsrAdvance_stride_add (k := 7) (by decide) 2).symm.trans (hmultiple 51 hd)) (by decide)
  · exact absurd ((lfsrAdvance_stride_add (k := 12) (by decide) 1).symm.trans (hmultiple 85 hd)) (by decide)

/-- Settles O12: the step by the bit shifted out, the first values by evaluation,
and the period by the divisors of 255. -/
theorem lfsrStepByValue : Obligations.LfsrStepByValue :=
  ⟨fun l => ⟨lfsrStep_toNat l, lfsrStep_output l, lfsrStep_ne_zero⟩, by decide, by decide,
    lfsrAdvance_255_seed, fun _ => lfsrAdvance_ne_seed⟩

/-! ### One extraction -/

theorem lfsrAdvance_succ (n : Nat) (l : BitVec 8) : lfsrAdvance (n + 1) l = (lfsrStep (lfsrAdvance n l)).1 :=
  lfsrAdvance_add n 1 l

theorem rcExtractBit_getLsbD (cl : Lane × BitVec 8) (j p : Nat) :
    (rcExtractBit cl j).1.getLsbD p = true ↔
      cl.1.getLsbD p = true ∨ (p < 64 ∧ p = 2 ^ j - 1 ∧ (lfsrStep cl.2).2 = true) := by
  unfold rcExtractBit
  cases hout : (lfsrStep cl.2).2 with
  | false => simp
  | true =>
    have hbit : (BitVec.ofNat 64 (1 <<< (2 ^ j - 1))).getLsbD p = true ↔ p < 64 ∧ p = 2 ^ j - 1 := by
      rw [BitVec.getLsbD_ofNat, Nat.one_shiftLeft, Nat.testBit_two_pow, Bool.and_eq_true, decide_eq_true_eq,
        decide_eq_true_eq, eq_comm (a := p)]
    simp only [if_true, BitVec.getLsbD_or, Bool.or_eq_true, and_true]
    exact or_congr_right hbit

/-- The first `n` bit positions of the extraction (rule R64); a command takes seven. -/
theorem rcExtractBit_foldl (n : Nat) (l : BitVec 8) :
    ((List.range n).foldl rcExtractBit (0, l)).2 = lfsrAdvance n l ∧
    ∀ p : Nat, ((List.range n).foldl rcExtractBit (0, l)).1.getLsbD p = true ↔
      p < 64 ∧ ∃ j, j < n ∧ p = 2 ^ j - 1 ∧ (lfsrStep (lfsrAdvance j l)).2 = true := by
  induction n with
  | zero => exact ⟨rfl, fun p => by simp⟩
  | succ n ih =>
    obtain ⟨hlfsr, hbits⟩ := ih
    rw [List.range_succ, List.foldl_append, List.foldl_cons, List.foldl_nil, lfsrAdvance_succ]
    refine ⟨congrArg (fun m => (lfsrStep m).1) hlfsr, fun p => ?_⟩
    rw [rcExtractBit_getLsbD, hbits, hlfsr, ← and_or_left, Nat.exists_lt_succ_right]

/-- Bit `2^j - 1` of an extracted constant is the output of step `j`, and no other bit is set (rule R64). -/
theorem rcExtract_getLsbD (l : BitVec 8) (p : Nat) :
    (rcExtract l).1.getLsbD p = true ↔ ∃ j, j < 7 ∧ p = 2 ^ j - 1 ∧ (lfsrStep (lfsrAdvance j l)).2 = true := by
  refine ((rcExtractBit_foldl 7 l).2 p).trans (and_iff_right_of_imp ?_)
  rintro ⟨j, hj, rfl, _⟩
  have : 2 ^ j ≤ 2 ^ 6 := Nat.pow_le_pow_right (by decide) (by omega)
  omega

/-! ### The commands of the generator -/

theorem exec_rcseed {s : State} (he : s.errf = false) : exec .rcseed s = .next (rcSeedOp s) := unlessError_running he

theorem exec_rcnext {s : State} (he : s.errf = false) (hr : s.rnd.toNat < numRounds) :
    exec .rcnext s = .next (rcNextOp s) :=
  (unlessError_running he).trans (if_pos hr)

theorem exec_rcld {s : State} {r : RoundIndex} (he : s.errf = false) (hr : r.toNat < numRounds) :
    exec (.rcld r) s = .next (rcLoadOp r.toNat s) :=
  (if_pos (roundIndexLegal_iff.mpr hr)).trans (unlessError_running he)

/-- Settles O14, by the hold. -/
theorem rcseedResult : Obligations.RcseedResult :=
  fun _ => ⟨exec_rcseed, fun he => exec_held he (by decide) (by decide)⟩

/-- Settles O15: the constant is the one extracted from `LFSR`. -/
theorem rcnextResult : Obligations.RcnextResult :=
  fun s he hr => ⟨(rcExtract s.lfsr).1, exec_rcnext he hr, rcExtract_getLsbD s.lfsr⟩

theorem rcTable_eq_extract : ∀ r < 24, rcTable[r]? = some (rcExtract (lfsrStrides.getD r 0)).1 := by decide

theorem rcAfterTable_eq_stride : ∀ r < 24, rcAfterTable[r]? = some (lfsrStrides.getD (r + 1) 0) := by decide

/-- Settles O13, row by row, each from the LFSR value of the row before. -/
theorem tableEqualsLfsrRun : Obligations.TableEqualsLfsrRun := by
  refine ⟨rfl, rfl, fun r hr => ⟨?_, ?_⟩⟩
  · rw [rcOf_eq_extract, lfsrAdvance_stride (by omega), rcTable_eq_extract r hr]
  · rw [rcRun_lfsr, lfsrAdvance_stride (by omega), rcAfterTable_eq_stride r hr]

/-- `RCLD r` leaves the row `r` of rule R66. -/
theorem rcLoadOp_eq_row {r : Nat} (hr : r < 24) (s : State) :
    rcLoadOp r s =
      { s with rc := rcTable.getD r 0, lfsr := rcAfterTable.getD r 0, rnd := BitVec.ofNat 5 (r + 1) } := by
  obtain ⟨-, -, hrows⟩ := tableEqualsLfsrRun
  obtain ⟨hrc, hlfsr⟩ := hrows r hr
  rw [rcRun_lfsr] at hlfsr
  simp only [List.getD_eq_getElem?_getD, hrc, hlfsr, Option.getD_some]
  rfl

/-- The generator has run from the seed up to before the constant of round `r` (rules R19, R65). -/
def GeneratorAt (r : Nat) (s : State) : Prop :=
  s.lfsr = lfsrAdvance (rcBits * r) lfsrSeed ∧ s.rnd = BitVec.ofNat 5 r

theorem generatorAt_rcSeedOp (s : State) : GeneratorAt 0 (rcSeedOp s) := ⟨rfl, rfl⟩

theorem generatorAt_rcLoadOp (r : Nat) (s : State) : GeneratorAt (r + 1) (rcLoadOp r s) := ⟨rfl, rfl⟩

/-- On the run from the seed the next constant is the one `RCLD` loads. -/
theorem rcNextOp_of_generatorAt {r : Nat} {s : State} (h : GeneratorAt r s) : rcNextOp s = rcLoadOp r s := by
  obtain ⟨hlfsr, hrnd⟩ := h
  rw [rcNextOp, rcLoadOp, hlfsr, hrnd, rcOf_eq_extract, rcExtract_lfsr, ← lfsrAdvance_succ_round, BitVec.ofNat_add]
  rfl

theorem exec_rcnext_of_generatorAt {r : Nat} {s : State} (he : s.errf = false) (h : GeneratorAt r s) (hr : r < 24) :
    exec .rcnext s = .next (rcLoadOp r s) := by
  have hrnd : s.rnd.toNat < numRounds := by
    rw [h.2, BitVec.toNat_ofNat, Nat.mod_eq_of_lt (by omega)]
    exact hr
  rw [exec_rcnext he hrnd, rcNextOp_of_generatorAt h]

/-- A sequence goes on from the state its first command leaves. -/
theorem execAll_cons_next {i : Instr} {is : List Instr} {s t : State} (h : exec i s = .next t) :
    execAll (i :: is) s = execAll is t := by
  rw [execAll_cons, h, andThen_next]

/-- `RCNEXT` issued `n + 1` times takes the run from before round `r` to the constant of round `r + n`. -/
theorem execAll_replicate_rcnext {n r : Nat} {s : State} (he : s.errf = false) (h : GeneratorAt r s)
    (hr : r + n < 24) : execAll (List.replicate (n + 1) .rcnext) s = .next (rcLoadOp (r + n) s) := by
  induction n generalizing r s with
  | zero => rw [List.replicate_one, execAll_singleton, exec_rcnext_of_generatorAt he h hr, Nat.add_zero]
  | succ n ih =>
    rw [List.replicate_succ, execAll_cons_next (exec_rcnext_of_generatorAt he h (by omega)),
      ih (s := rcLoadOp r s) he (generatorAt_rcLoadOp r s) (by omega), rcLoadOp_rcLoadOp,
      Nat.add_right_comm, Nat.add_assoc]

/-- `RCSEED` and `r + 1` times `RCNEXT` leave what `RCLD r` leaves (rule R70). -/
theorem execAll_rcseed_replicate_rcnext {r : Nat} {s : State} (he : s.errf = false) (hr : r < 24) :
    execAll (.rcseed :: List.replicate (r + 1) .rcnext) s = .next (rcLoadOp r s) := by
  rw [execAll_cons_next (exec_rcseed he),
    execAll_replicate_rcnext (s := rcSeedOp s) he (generatorAt_rcSeedOp s) (by omega), Nat.zero_add]
  rfl

/-- Settles O16: the run is an `RCLD`, and that leaves a row of the table. -/
theorem rcnextSequenceAfterSeed : Obligations.RcnextSequenceAfterSeed := by
  intro s n he hpos hn
  obtain ⟨r, rfl⟩ : ∃ r, n = r + 1 := ⟨n - 1, by omega⟩
  rw [execAll_rcseed_replicate_rcnext he hn, rcLoadOp_eq_row hn, Nat.add_sub_cancel]

/-- Settles O17: the row of the table, and the run it equals. -/
theorem rcldResult : Obligations.RcldResult := by
  intro r s hr
  have hr : r.toNat < 24 := Nat.lt_succ_of_le hr
  have hrnd : BitVec.ofNat 5 (r.toNat + 1) = r + 1 := by
    rw [BitVec.ofNat_add, BitVec.ofNat_toNat, BitVec.setWidth_eq]
    rfl
  refine ⟨fun he => ⟨?_, ?_⟩, fun he => exec_held he (by simp) (by simp)⟩
  · rw [exec_rcld he hr, rcLoadOp_eq_row hr, hrnd]
  · rw [exec_rcld he hr, execAll_rcseed_replicate_rcnext he hr]

end Sys2Proof.Machine
end

section
/-! PROOFS. `KECCAKF` is also the run of an LFSR implementation: `RCSEED`, and then each round begins with an `RCNEXT` in
place of its `RCLD`. -/

namespace Sys2Proof.Machine

/-- Before round `n` the generator is where the run from the seed has it, whichever rounds were issued. -/
theorem generatorAt_roundsOp (n : Nat) {s : State} (h : GeneratorAt 0 s) : GeneratorAt n (roundsOp n s) := by
  cases n with
  | zero => exact h
  | succ n => rw [roundsOp_succ_eq]; exact generatorAt_rcLoadOp n s

theorem roundsOp_errf (n : Nat) (s : State) : (roundsOp n s).errf = s.errf := by
  cases n with
  | zero => rfl
  | succ n => rw [roundsOp_succ_eq]; rfl

/-- A round of an LFSR implementation: the next constant, and the five steps. -/
def sequentialRound : List Instr := [.rcnext, .theta, .rho, .pi, .chi, .iota]

/-- On the run from the seed it is `ROUND r` (rules R83, R89). -/
theorem execAll_sequentialRound {r : Nat} {s : State} (he : s.errf = false) (h : GeneratorAt r s) (hr : r < 24) :
    execAll sequentialRound s = .next (roundOp r s) := by
  calc execAll sequentialRound s
    _ = execAll [.theta, .rho, .pi, .chi, .iota] (rcLoadOp r s) :=
      execAll_cons_next (exec_rcnext_of_generatorAt he h hr)
    _ = execAll [.rho, .pi, .chi, .iota] (thetaOp (rcLoadOp r s)) := execAll_cons_next (unlessError_running he)
    _ = execAll [.pi, .chi, .iota] (rhoOp (thetaOp (rcLoadOp r s))) := execAll_cons_next (unlessError_running he)
    _ = execAll [.chi, .iota] (piOp (rhoOp (thetaOp (rcLoadOp r s)))) := execAll_cons_next (unlessError_running he)
    _ = execAll [.iota] (chiOp (piOp (rhoOp (thetaOp (rcLoadOp r s))))) := execAll_cons_next (unlessError_running he)
    _ = .next (roundOp r s) := execAll_cons_next (unlessError_running he)

/-- `n` rounds of an LFSR implementation are `ROUND 0` to `ROUND (n-1)`. -/
theorem execAll_sequentialRounds {n : Nat} {s : State} (he : s.errf = false) (h : GeneratorAt 0 s) (hn : n ≤ 24) :
    execAll (List.replicate n sequentialRound).flatten s = .next (roundsOp n s) := by
  induction n with
  | zero => rfl
  | succ n ih =>
    rw [List.replicate_succ', List.flatten_append, List.flatten_singleton, execAll_append, ih (by omega), andThen_next]
    exact execAll_sequentialRound ((roundsOp_errf n s).trans he) (generatorAt_roundsOp n h) hn

/-- The permutation does not depend on the generator it starts with (rule R71). -/
theorem keccakOp_rcSeedOp (s : State) : keccakOp (rcSeedOp s) = keccakOp s := by
  rw [keccakOp_eq, keccakOp_eq, rcSeedOp_lanes]
  rfl

/-- None of the commands of that form executes in the error state (rule R117). -/
theorem sequentialRounds_ne_init_digest {n : Nat} :
    ∀ i ∈ Instr.rcseed :: (List.replicate n sequentialRound).flatten, i ≠ .init ∧ i ≠ .digest := by
  have hround : ∀ i ∈ sequentialRound, i ≠ .init ∧ i ≠ .digest := by decide
  refine List.forall_mem_cons.mpr ⟨by decide, fun i hi => ?_⟩
  obtain ⟨is, his, hi⟩ := List.mem_flatten.mp hi
  rw [List.eq_of_mem_replicate his] at hi
  exact hround i hi

/-- Settles O28, round by round from the seeded generator; in the error state every command of both forms is held. -/
theorem keccakSequentialForm : Obligations.KeccakSequentialForm := by
  intro s
  show exec .keccakf s = execAll (.rcseed :: (List.replicate 24 sequentialRound).flatten) s
  cases he : s.errf with
  | true => rw [exec_held he (by decide) (by decide), execAll_held he sequentialRounds_ne_init_digest]
  | false =>
    have hkeccak : exec .keccakf s = .next (keccakOp s) := unlessError_running he
    rw [hkeccak, execAll_cons_next (exec_rcseed he),
      execAll_sequentialRounds (s := rcSeedOp s) he (generatorAt_rcSeedOp s) (Nat.le_refl 24), ← keccakOp_rcSeedOp]
    rfl

end Sys2Proof.Machine
end

section
/-! PROOFS. The permutation round: the rotation bit by bit, each of the five steps lane by lane, the walk that the offsets
of rho come from, and the commands of the steps and of the round. -/

namespace Sys2Proof.Machine

/-! ### The rotation -/

/-- Settles O18: the library's rotation, where bit `i` leaves the top or does not. -/
theorem rotationMovesBits : Obligations.RotationMovesBits := by
  refine ⟨fun v n i hi => ?_, fun _ => rfl⟩
  have hn : n.val % 64 = n.val := Nat.mod_eq_of_lt n.isLt
  rw [rotl64_eq_rotateLeft, BitVec.getLsbD_rotateLeft, hn]
  rcases Nat.lt_or_ge (i + n.val) 64 with h | h
  · have hpos : (i + n.val) % 64 = i + n.val := Nat.mod_eq_of_lt h
    simp [hpos, h]
  · have hpos : (i + n.val) % 64 = i + n.val - 64 := by omega
    have hlow : i + n.val - 64 < n.val := by omega
    have hback : 64 - n.val + (i + n.val - 64) = i := by omega
    rw [hpos, cond_eq_ite, if_pos (decide_eq_true hlow), hback]

/-! ### The steps, lane by lane -/

theorem theta_lane (A : Lanes) (x y : Fin 5) :
    (theta A).lane x y = A.lane x y ^^^ (thetaC A (x + 4) ^^^ (thetaC A (x + 1)).rotateLeft 1) := by
  rw [theta, lane_build, thetaD, mod5_pred, mod5_succ, rotl64_eq_rotateLeft]
  rfl

theorem rho_lane (A : Lanes) (x y : Fin 5) : (rho A).lane x y = (A.lane x y).rotateLeft (rhoOffset x y).val := by
  rw [rho, lane_build, rotl64_eq_rotateLeft]

/-- The source position that rule R80 gives for a target undoes the target it gives for a source. -/
theorem piStep_lane_target (A : Lanes) (x y : Fin 5) : (piStep A).lane y (2 * x + 3 * y) = A.lane x y := by
  have hsource : y + 3 * (2 * x + 3 * y) = x := by revert x y; decide
  rw [piStep, lane_build, mod5_pi_source, hsource]

theorem chi_lane (A : Lanes) (x y : Fin 5) :
    (chi A).lane x y = A.lane x y ^^^ (~~~ A.lane (x + 1) y &&& A.lane (x + 2) y) := by
  rw [chi, lane_build, mod5_succ, mod5_add_two]

theorem iota_lane_zero (A : Lanes) (c : Lane) : (iota A c).lane 0 0 = A.lane 0 0 ^^^ c := by
  rw [iota, lane_build]
  exact if_pos ⟨rfl, rfl⟩

theorem iota_lane_of_ne (A : Lanes) (c : Lane) {x y : Fin 5} (h : (x, y) ≠ (0, 0)) :
    (iota A c).lane x y = A.lane x y := by
  rw [iota, lane_build]
  exact if_neg fun ⟨hx, hy⟩ => h (Prod.ext (Fin.ext hx) (Fin.ext hy))

/-- The same constant twice cancels in lane (0,0), and no other lane has it. -/
theorem iota_iota (A : Lanes) (c : Lane) : iota (iota A c) c = A := by
  refine lanes_ext fun x y => ?_
  by_cases h : (x, y) = (0, 0)
  · cases h
    rw [iota_lane_zero, iota_lane_zero, BitVec.xor_assoc, BitVec.xor_self, BitVec.xor_zero]
  · rw [iota_lane_of_ne _ _ h, iota_lane_of_ne _ _ h]

/-- Settles O25: rho rotates at the source, and pi moves the source to the target. -/
theorem rhoPiFused : Obligations.RhoPiFused := by
  intro A x y
  rw [piStep_lane_target, rho_lane]

/-! ### The offsets of rho -/

theorem rhoWalk_succ (t : Nat) : rhoWalk (t + 1) = ((rhoWalk t).2, 2 * (rhoWalk t).1 + 3 * (rhoWalk t).2) :=
  congrArg ((rhoWalk t).2, ·) (mod5_pi_target _ _)

theorem rhoOffset_rhoWalk : ∀ t < 24, (rhoOffset (rhoWalk t).1 (rhoWalk t).2).val = rhoTriangular t := by decide

theorem rhoTriangular_ne_zero : ∀ t < 24, rhoTriangular t ≠ 0 := by decide

theorem rhoTriangular_inj : ∀ t < 24, ∀ u < 24, rhoTriangular u = rhoTriangular t → u = t := by decide

/-- The walk does not come to a position twice, for the offsets along it differ. -/
theorem rhoWalk_inj {t u : Nat} (ht : t < 24) (hu : u < 24) (h : rhoWalk u = rhoWalk t) : u = t := by
  refine rhoTriangular_inj t ht u hu ?_
  rw [← rhoOffset_rhoWalk u hu, ← rhoOffset_rhoWalk t ht, h]

/-- The walk does not come to (0,0), whose offset is 0. -/
theorem rhoWalk_ne_origin {t : Nat} (ht : t < 24) : rhoWalk t ≠ (0, 0) := by
  intro h
  refine rhoTriangular_ne_zero t ht ?_
  rw [← rhoOffset_rhoWalk t ht, h]
  rfl

/-- The 24 positions of the walk are different ones among the 24 other than (0,0), so they are all of these. -/
theorem image_rhoWalk : (Finset.range 24).image rhoWalk = Finset.univ.erase (0, 0) := by
  refine Finset.eq_of_subset_of_card_le (fun p hp => ?_) ?_
  · obtain ⟨t, ht, rfl⟩ := Finset.mem_image.mp hp
    exact Finset.mem_erase.mpr ⟨rhoWalk_ne_origin (Finset.mem_range.mp ht), Finset.mem_univ _⟩
  · have hinj : Set.InjOn rhoWalk (Finset.range 24) := fun u hu t ht =>
      rhoWalk_inj (Finset.mem_range.mp ht) (Finset.mem_range.mp hu)
    rw [Finset.card_image_of_injOn hinj, Finset.card_range, Finset.card_erase_of_mem (Finset.mem_univ _)]
    rfl

/-- Settles O21: the offsets along the walk by evaluation, and from them that it visits each other lane exactly once. -/
theorem rhoOffsetsByWalk : Obligations.RhoOffsetsByWalk := by
  refine ⟨rfl, rfl, rhoWalk_succ, rhoOffset_rhoWalk, fun x y h => ?_⟩
  have hmem : (x, y) ∈ (Finset.range 24).image rhoWalk := by
    rw [image_rhoWalk]
    exact Finset.mem_erase.mpr ⟨h, Finset.mem_univ _⟩
  obtain ⟨t, ht, hxy⟩ := Finset.mem_image.mp hmem
  have ht : t < 24 := Finset.mem_range.mp ht
  exact ⟨t, ht, hxy, fun u hu huxy => rhoWalk_inj ht hu (huxy.trans hxy.symm)⟩

/-- The table of rule R77 as plain numbers. -/
theorem rhoOffset_val : ∀ x y : Fin 5, (rhoOffset x y).val =
    [0, 1, 62, 28, 27, 36, 44, 6, 55, 20, 3, 10, 43, 25, 39, 41, 45, 15, 21, 8, 18, 2, 61, 56, 14].getD
      (x.val + 5 * y.val) 0 := by decide

/-! ### The commands of the steps -/

theorem exec_theta {s : State} (he : s.errf = false) : exec .theta s = .next (thetaOp s) := unlessError_running he

theorem exec_rho {s : State} (he : s.errf = false) : exec .rho s = .next (rhoOp s) := unlessError_running he

theorem exec_pi {s : State} (he : s.errf = false) : exec .pi s = .next (piOp s) := unlessError_running he

theorem exec_chi {s : State} (he : s.errf = false) : exec .chi s = .next (chiOp s) := unlessError_running he

theorem exec_iota {s : State} (he : s.errf = false) : exec .iota s = .next (iotaOp s) := unlessError_running he

/-- Settles O19: `C` and `D` are the model's, computed from the lanes before. -/
theorem thetaResult : Obligations.ThetaResult := by
  refine fun s => ⟨fun he => ⟨thetaOp s, exec_theta he, rfl, ?_⟩, fun he => exec_held he (by decide) (by decide)⟩
  exact ⟨thetaC s.lanes, fun x => thetaC s.lanes (x + 4) ^^^ (thetaC s.lanes (x + 1)).rotateLeft 1,
    fun _ => rfl, fun _ => rfl, theta_lane s.lanes⟩

/-- Settles O20: each lane by its offset of the table. -/
theorem rhoResult : Obligations.RhoResult := by
  refine fun s => ⟨fun he => ⟨rhoOp s, exec_rho he, rfl, fun x y => ?_⟩, fun he => exec_held he (by decide) (by decide)⟩
  rw [← rhoOffset_val]
  exact rho_lane s.lanes x y

/-- Settles O22, by the lane at each target. -/
theorem piResult : Obligations.PiResult :=
  fun s => ⟨fun he => ⟨piOp s, exec_pi he, rfl, piStep_lane_target s.lanes⟩,
    fun he => exec_held he (by decide) (by decide)⟩

/-- Settles O23, lane by lane. -/
theorem chiResult : Obligations.ChiResult :=
  fun s => ⟨fun he => ⟨chiOp s, exec_chi he, rfl, chi_lane s.lanes⟩, fun he => exec_held he (by decide) (by decide)⟩

/-- `IOTA` writes neither `RC` nor any lane but (0,0), so a second one cancels the first (rule R82). -/
theorem iotaOp_iotaOp (s : State) : iotaOp (iotaOp s) = s :=
  congrArg s.withLanes (iota_iota s.lanes s.rc)

/-- Settles O24: lane (0,0), the other lanes, and the second `IOTA`. -/
theorem iotaResult : Obligations.IotaResult := by
  refine fun s => ⟨fun he => ⟨iotaOp s, exec_iota he, rfl, iota_lane_zero s.lanes s.rc,
    fun x y => iota_lane_of_ne s.lanes s.rc, ?_⟩, fun he => exec_held he (by decide) (by decide)⟩
  rw [exec_iota (s := iotaOp s) he, iotaOp_iotaOp]

/-! ### The round -/

theorem exec_round {s : State} {r : RoundIndex} (he : s.errf = false) (hr : r.toNat < numRounds) :
    exec (.round r) s = .next (roundOp r.toNat s) :=
  (if_pos (roundIndexLegal_iff.mpr hr)).trans (unlessError_running he)

/-- The five steps of a round, issued one by one. -/
theorem execAll_steps {s : State} (he : s.errf = false) :
    execAll [.theta, .rho, .pi, .chi, .iota] s = .next (iotaOp (chiOp (piOp (rhoOp (thetaOp s))))) := by
  calc execAll [.theta, .rho, .pi, .chi, .iota] s
    _ = execAll [.rho, .pi, .chi, .iota] (thetaOp s) := execAll_cons_next (exec_theta he)
    _ = execAll [.pi, .chi, .iota] (rhoOp (thetaOp s)) := execAll_cons_next (exec_rho he)
    _ = execAll [.chi, .iota] (piOp (rhoOp (thetaOp s))) := execAll_cons_next (exec_pi he)
    _ = execAll [.iota] (chiOp (piOp (rhoOp (thetaOp s)))) := execAll_cons_next (exec_chi he)
    _ = .next (iotaOp (chiOp (piOp (rhoOp (thetaOp s))))) := execAll_cons_next (exec_iota he)

/-- `ROUND r` and its six commands issued one by one, in every state: all held in the error state (rules R83, R117). -/
theorem exec_round_eq_execAll {s : State} {r : RoundIndex} (hr : r.toNat < numRounds) :
    exec (.round r) s = execAll [.rcld r, .theta, .rho, .pi, .chi, .iota] s := by
  cases he : s.errf with
  | true => rw [exec_held he (by simp) (by simp), execAll_held he (by simp)]
  | false =>
    rw [exec_round he hr, execAll_cons_next (exec_rcld he hr), execAll_steps (s := rcLoadOp r.toNat s) he]
    rfl

/-- Settles O26: the generator is left as `RCLD r` leaves it, and the lanes take the constant of that row. -/
theorem roundResult : Obligations.RoundResult := by
  intro r s hr
  have hlegal : r.toNat < numRounds := Nat.lt_succ_of_le hr
  refine ⟨exec_round_eq_execAll hlegal, fun he => ?_, fun he => exec_held he (by simp) (by simp)⟩
  obtain ⟨hrow, -⟩ := (rcldResult r s hr).1 he
  have hload := Host.Outcome.next.inj ((exec_rcld he hlegal).symm.trans hrow)
  have hrc : rcOf r.toNat = rcTable.getD r.toNat 0 := congrArg State.rc hload
  rw [exec_round he hlegal, roundOp_eq, hload, hrc]
  rfl

end Sys2Proof.Machine
end

section
/-! PROOFS. `KECCAKF` is the 24 rounds issued one by one, and it folds the round over the table of the constants. -/

namespace Sys2Proof.Machine

/-- The table is the generator's constants in round order (rules R65, R66). -/
theorem rcTable_eq_map_rcOf : rcTable = (List.range 24).map rcOf := by
  obtain ⟨hlength, -, hrows⟩ := tableEqualsLfsrRun
  refine List.ext_getElem (by simpa using hlength) fun r hr _ => ?_
  obtain ⟨hrow, -⟩ := hrows r (hlength ▸ hr)
  rw [List.getElem_map, List.getElem_range]
  exact (List.getElem_eq_iff hr).mpr hrow

/-- Rounds `0` to `n - 1` fold the round over their constants. -/
theorem roundsFn_eq_foldl (n : Nat) (A : Lanes) : roundsFn n A = ((List.range n).map rcOf).foldl roundFn A := by
  induction n with
  | zero => rfl
  | succ n ih => rw [roundsFn, ih, List.range_succ, List.map_append, List.foldl_append]; rfl

/-- The permutation takes the constants of the table in order (rules R71, R87). -/
theorem keccakF_eq_foldl_rcTable (A : Lanes) : keccakF A = rcTable.foldl roundFn A := by
  rw [rcTable_eq_map_rcOf, ← roundsFn_eq_foldl, keccakF, numRounds]

theorem exec_keccakf {s : State} (he : s.errf = false) : exec .keccakf s = .next (keccakOp s) := unlessError_running he

/-- `ROUND r` by the number of the round. -/
theorem exec_round_ofNat {r : Nat} {s : State} (he : s.errf = false) (hr : r < 24) :
    exec (.round (BitVec.ofNat 5 r)) s = .next (roundOp r s) := by
  have hindex : (BitVec.ofNat 5 r).toNat = r := by rw [BitVec.toNat_ofNat, Nat.mod_eq_of_lt (by omega)]
  rw [exec_round he (hindex.symm ▸ hr), hindex]

/-- `ROUND 0` to `ROUND (n-1)` issued one by one. -/
theorem execAll_rounds {n : Nat} {s : State} (he : s.errf = false) (hn : n ≤ 24) :
    execAll ((List.range n).map fun r => .round (BitVec.ofNat 5 r)) s = .next (roundsOp n s) := by
  induction n with
  | zero => rfl
  | succ n ih =>
    rw [List.range_succ, List.map_append, execAll_append, ih (by omega), andThen_next, List.map_singleton,
      execAll_singleton]
    exact exec_round_ofNat ((roundsOp_errf n s).trans he) hn

/-- `KECCAKF` and its 24 rounds issued one by one, in every state: all held in the error state (rules R87, R117). -/
theorem exec_keccakf_eq_execAll_rounds (s : State) :
    exec .keccakf s = execAll ((List.range 24).map fun r => .round (BitVec.ofNat 5 r)) s := by
  cases he : s.errf with
  | true =>
    rw [exec_held he (by decide) (by decide), execAll_held he (by simp)]
  | false => rw [exec_keccakf he, execAll_rounds he (Nat.le_refl 24), keccakOp, numRounds]

/-- `KECCAKF` writes the lanes, and leaves the generator as `RCLD 23` leaves it (rules R66, R87). -/
theorem keccakOp_eq_table (s : State) :
    keccakOp s =
      { s with lanes := rcTable.foldl roundFn s.lanes, rc := 0x8000000080008008, lfsr := 0x8E, rnd := 24 } := by
  rw [keccakOp_eq, rcLoadOp_eq_row (by decide), keccakF_eq_foldl_rcTable]
  rfl

/-- Settles O27: the rounds one by one, the state they leave, and the hold. -/
theorem keccakResult : Obligations.KeccakResult :=
  fun s => ⟨exec_keccakf_eq_execAll_rounds s,
    fun he => (exec_keccakf he).trans (congrArg Host.Outcome.next (keccakOp_eq_table s)),
    fun he => exec_held he (by decide) (by decide)⟩

end Sys2Proof.Machine
end

section
/-! PROOFS. The sponge up to one block: `INIT`, the padded length, the checks and the writes of `PAD`, what `XORBLK` and
`ABSORB` do with a block left, which lanes the other commands leave alone, and the causes of the errors. -/

namespace Sys2Proof.Machine

/-! ### `INIT` and the padded length -/

/-- Settles O29: `INIT` writes constants only, so a second one writes the same. -/
theorem initResult : Obligations.InitResult :=
  fun s => ⟨s.initialise, rfl, zero_lane, rfl, Nat.zero_div _, rfl⟩

theorem paddedLen_of_aligned {n : Nat} (h : n % 136 = 0) : paddedLen n = n := if_pos h

theorem paddedLen_of_unaligned {n : Nat} (h : n % 136 ≠ 0) : paddedLen n = 136 * (n / 136 + 1) := by
  rw [paddedLen, rateBytes, if_neg h]
  omega

/-- A padded length is made of whole blocks (rule R94). -/
theorem paddedLen_eq_blocks (n : Nat) : paddedLen n = rateBytes * blockCount n := by
  rw [blockCount_eq, rateBytes]
  by_cases h : n % 136 = 0
  · rw [paddedLen_of_aligned h]
    omega
  · rw [paddedLen_of_unaligned h]
    omega

/-- Settles O30, for an aligned length and for any other. -/
theorem paddedLengthRule : Obligations.PaddedLengthRule := by
  intro n
  have hblocks : 136 * blockCount n = paddedLen n := (paddedLen_eq_blocks n).symm
  by_cases h : n % 136 = 0
  · have heq := paddedLen_of_aligned h
    exact ⟨fun _ => heq, fun hn => absurd h hn, by omega, by omega, hblocks⟩
  · have heq := paddedLen_of_unaligned h
    exact ⟨fun hn => absurd hn h, fun _ => ⟨heq, by omega, fun m hm hle => by omega⟩, by omega, by omega, hblocks⟩

/-! ### The checks of `PAD` -/

theorem padOp_of_negative {s : State} (hl : s.len < 0) : padOp s = .next (s.raise .length) :=
  padOp_eq_next.mpr (.inl ⟨hl, rfl⟩)

theorem padOp_of_no_room {s : State} (hl : 0 ≤ s.len) (hr : ¬ roomFor s.cfg (paddedLen s.len.toNat)) :
    padOp s = .next (s.raise .alloc) :=
  padOp_eq_next.mpr (.inr (.inl ⟨hl, (fitsBuffer_eq_false _ _).mpr hr, rfl⟩))

theorem padOp_of_message {s : State} {bs : List Byte} (hl : 0 ≤ s.len) (hr : roomFor s.cfg (paddedLen s.len.toNat))
    (hbs : s.msg.readBytes 0 s.len.toNat = some bs) : padOp s = .next (padWrites s bs) :=
  padOp_eq_next.mpr (.inr (.inr ⟨hl, (fitsBuffer_iff _ _).mpr hr, bs, hbs, rfl⟩))

/-- Settles O32, by the two checks of `PAD`. -/
theorem padErrors : Obligations.PadErrors :=
  fun _ he => ⟨fun hl => (unlessError_running he).trans (padOp_of_negative hl),
    fun hl hr => (unlessError_running he).trans (padOp_of_no_room hl hr)⟩

/-- Settles O42: the `PAD` inside raises, from the state that the `INIT` inside leaves. -/
theorem failingDigest : Obligations.FailingDigest :=
  fun s => ⟨fun hl => digestOp_of_raise (padOp_of_negative (s := s.initialise) hl) rfl,
    fun hl hr => digestOp_of_raise (padOp_of_no_room (s := s.initialise) hl hr) rfl⟩

/-- Settles O57: such a length has no room, so that `PAD` and `DIGEST` raise. -/
theorem lengthBeyondItsBitsHasNoRoom : Obligations.LengthBeyondItsBitsHasNoRoom := by
  intro s w hlimit hw hl hp
  have hroom : ¬ roomFor s.cfg (paddedLen s.len.toNat) :=
    (fitsBuffer_eq_false _ _).mp (fitsBuffer_too_long hlimit hw hp)
  obtain ⟨-, hdigest⟩ := failingDigest s
  refine ⟨fun he => ?_, _, hdigest hl hroom, rfl, rfl⟩
  obtain ⟨-, hpad⟩ := padErrors s he
  exact hpad hl hroom

/-! ### The writes of `PAD` -/

/-- What `PBUF` holds after a `PAD`: the padded message, and above it what it held before (log 8). -/
theorem padWrites_read (s : State) (bs : List Byte) (a : Nat) :
    (padWrites s bs).pbuf.read a = if a < paddedLen bs.length then (padMessage bs)[a]? else s.pbuf.read a := by
  rw [padWrites_pbuf, read_store]
  simp

theorem padByte_suffix {n : Nat} (h : n + 1 < paddedLen n) : padByte n n = 0x06 := by
  rw [padByte, if_pos rfl, if_pos h, suffixByte]

theorem padByte_join {n : Nat} (h : n + 1 = paddedLen n) : padByte n n = 0x86 := by
  rw [padByte, if_pos rfl, if_neg (by omega), joinByte]

theorem padByte_final {n a : Nat} (hn : n < a) (h : a + 1 = paddedLen n) : padByte n a = 0x80 := by
  rw [padByte, if_neg (by omega), if_pos h, finalByte]

theorem padByte_zero {n a : Nat} (hn : n < a) (h : a + 1 < paddedLen n) : padByte n a = 0x00 := by
  rw [padByte, if_neg (by omega), if_neg (by omega)]

theorem padWrites_read_message (s : State) {bs : List Byte} {a : Nat} (h : a < bs.length) :
    (padWrites s bs).pbuf.read a = bs[a]? := by
  obtain ⟨-, -, hle, -⟩ := paddedLengthRule bs.length
  rw [padWrites_read, if_pos (by omega), padMessage_message bs a h]

theorem padWrites_read_padding (s : State) {bs : List Byte} {a : Nat} (h1 : bs.length ≤ a)
    (h2 : a < paddedLen bs.length) : (padWrites s bs).pbuf.read a = some (padByte bs.length a) := by
  rw [padWrites_read, if_pos h2, padMessage_padding bs a h1 h2]

/-- Settles O31: the message, each kind of padding byte, and `PBUF` above the padded message. -/
theorem padResult : Obligations.PadResult := by
  intro s he hl hr hm
  obtain ⟨bs, hbs⟩ := Option.isSome_iff_exists.mp ((messageReadable_iff s).mp hm)
  obtain ⟨hlen, hread⟩ := readBytes_eq_some.mp hbs
  refine ⟨padWrites s bs, (unlessError_running he).trans (padOp_of_message hl hr hbs), ?_⟩
  rw [← hlen] at hread ⊢
  refine ⟨rfl, rfl, fun a ha => ?_, ?_, fun a hlt hp => ?_, fun a hlt hp => ?_, ?_, fun a hp => ?_⟩
  · rw [padWrites_read_message s ha, ← hread a ha, Nat.zero_add]
  · rintro a rfl hp
    rw [padWrites_plen] at hp
    rw [padWrites_read_padding s (by omega) (by omega), padByte_suffix hp]
  · rw [padWrites_plen] at hp
    rw [padWrites_read_padding s (by omega) (by omega), padByte_zero hlt hp]
  · rw [padWrites_plen] at hp
    rw [padWrites_read_padding s (by omega) (by omega), padByte_final hlt hp]
  · rintro a rfl hp
    rw [padWrites_plen] at hp
    rw [padWrites_read_padding s (by omega) (by omega), padByte_join hp]
  · rw [padWrites_plen] at hp
    rw [padWrites_read, if_neg (by omega)]

/-! ### A block left -/

theorem xorblkOp_of_block {s : State} {block : List Byte} (hp : s.pvalid = true) (hb : s.blk < s.nblk)
    (hblk : s.pbuf.readBytes (rateBytes * s.blk) rateBytes = some block) :
    xorblkOp s = .next (xorblkWrites s block) :=
  xorblkOp_eq_next.mpr (.inr ⟨blockLeft_iff.mpr ⟨hp, hb⟩, block, hblk, rfl⟩)

/-- Settles O34: each lane by its linear index, below the rate and above it. -/
theorem xorblkResult : Obligations.XorblkResult := by
  intro s he hp hb hheld
  obtain ⟨block, hblk⟩ := Option.isSome_iff_exists.mp (readBytes_isSome.mpr hheld)
  refine ⟨xorblkWrites s block, (unlessError_running he).trans (xorblkOp_of_block hp hb hblk), rfl,
    fun k hk => ⟨blockWord block k.val, readLane_of_block _ _ _ hk block hblk, ?_⟩, fun k hk => ?_⟩
  · rw [xorblkWrites_lanes, xorBlock_linear, if_pos hk]
  · rw [xorblkWrites_lanes, xorBlock_linear, if_neg (by omega)]

/-- `ABSORB` on a block left: the permuted lanes, the next block, and the generator as `RCLD 23` leaves it (rule R101). -/
theorem absorbOp_of_block {s : State} {block : List Byte} (hp : s.pvalid = true) (hb : s.blk < s.nblk)
    (hblk : s.pbuf.readBytes (rateBytes * s.blk) rateBytes = some block) :
    absorbOp s = .next { s with lanes := keccakF (xorBlock s.lanes block), blk := s.blk + 1,
                                rc := 0x8000000080008008, lfsr := 0x8E, rnd := 24 } := by
  refine absorbOp_eq_next.mpr (.inr ⟨blockLeft_iff.mpr ⟨hp, hb⟩, block, hblk, ?_⟩)
  rw [keccakOp_eq_table, ← keccakF_eq_foldl_rcTable, xorblkWrites_lanes]
  rfl

/-- `ABSORB` and its two commands issued one by one, in every state: both held in the error state; a raise of `XORBLK`
holds the `KECCAKF`; a stop of `XORBLK` stops both. -/
theorem exec_absorb_eq_execAll (s : State) : exec .absorb s = execAll [.xorblk, .keccakf] s := by
  cases he : s.errf with
  | true => rw [exec_held he (by decide) (by decide), execAll_held he (by decide)]
  | false =>
    have habsorb : exec .absorb s = absorbOp s := unlessError_running he
    have hxorblk : exec .xorblk s = xorblkOp s := unlessError_running he
    rw [habsorb, execAll_cons, hxorblk]
    cases hb : blockLeft s with
    | false =>
      have hraise : xorblkOp s = .next (s.raise .seq) := xorblkOp_eq_next.mpr (.inl ⟨hb, rfl⟩)
      rw [hraise, andThen_next, execAll_held rfl (by decide)]
      exact absorbOp_eq_next.mpr (.inl ⟨hb, rfl⟩)
    | true =>
      rw [absorbOp, if_pos hb]
      cases hx : xorblkOp s with
      | fault f => rfl
      | refused q => rfl
      | next t =>
        have hrun : t.errf = false := by
          rcases xorblkOp_eq_next.mp hx with ⟨hn, -⟩ | ⟨-, block, -, rfl⟩
          · rw [hb] at hn
            cases hn
          · exact he
        rw [andThen_next, andThen_next, execAll_singleton, exec_keccakf hrun]

/-- Settles O35: the commands one by one, and the state after a block. -/
theorem absorbResult : Obligations.AbsorbResult := by
  refine ⟨exec_absorb_eq_execAll, fun s he hp hb hheld => ?_⟩
  obtain ⟨block, hblk⟩ := Option.isSome_iff_exists.mp (readBytes_isSome.mpr hheld)
  exact ⟨_, block, hblk, (unlessError_running he).trans (absorbOp_of_block hp hb hblk), rfl⟩

/-! ### The capacity lanes -/

/-- The constant goes into lane `L[0]` only (rule R82). -/
theorem iota_linear_of_pos (A : Lanes) (c : Lane) {k : Fin 25} (hk : 0 < k.val) : (iota A c).linear k = A.linear k := by
  refine iota_lane_of_ne A c fun h => ?_
  obtain ⟨hx, hy⟩ := Prod.ext_iff.mp h
  have hx : k.val % 5 = 0 := congrArg Fin.val hx
  have hy : k.val / 5 = 0 := congrArg Fin.val hy
  omega

/-- What computes and is no permutation leaves the capacity lanes (rules R82, R100, R107). -/
theorem computes_capacity_lane {s t : State} {i : Instr} (h : Computes s i t) {k : Fin 25} (hk : 17 ≤ k.val) :
    i = .theta ∨ i = .rho ∨ i = .pi ∨ i = .chi ∨ (∃ r, i = .round r) ∨ i = .keccakf ∨ i = .absorb ∨
      t.lanes.linear k = s.lanes.linear k := by
  cases i with
  | theta | rho | pi | chi | round | keccakf | absorb => simp
  | rcseed => obtain rfl := h; simp
  | rcnext | rcld => obtain ⟨-, rfl⟩ := h; simp
  | iota => obtain rfl := h; simp [iotaOp, iota_linear_of_pos _ _ (k := k) (by omega)]
  | xorblk => obtain ⟨-, block, -, rfl⟩ := h; simp [xorBlock_linear, Nat.not_lt.mpr hk]
  | init | pad | squeeze | digest => exact h.elim

/-- What writes a flag leaves the lanes, but for `INIT` and `DIGEST`. -/
theorem writesFlags_lanes {s t : State} {i : Instr} (h : WritesFlags s i t) :
    i = .init ∨ i = .digest ∨ t.lanes = s.lanes := by
  cases i with
  | init | digest => simp
  | pad => obtain ⟨-, -, -, bs, -, rfl⟩ := h; simp
  | squeeze => obtain ⟨-, -, rfl⟩ := h; simp
  | _ => exact h.elim

/-- Settles O44, by the effect of the command. -/
theorem capacityLanesUntouched : Obligations.CapacityLanesUntouched := by
  intro i s t k hx hk
  rcases exec_effect hx with ⟨-, -, -, rfl⟩ | ⟨-, e, -, rfl⟩ | ⟨rfl, -⟩ | ⟨-, hc⟩ | hw
  · simp
  · simp
  · simp
  · rcases computes_capacity_lane hc hk with h | h | h | h | h | h | h | h <;> simp [h]
  · rcases writesFlags_lanes hw with h | h | h <;> simp [h]

/-! ### The causes of the errors -/

/-- The cause of each code that `PAD` raises, for itself or inside a `DIGEST` (rules R94, R95, R113). -/
theorem raises_pad_cause {s : State} {e : ErrCode} (h : Raises s .pad e) :
    (e = .length ∧ s.len < 0) ∨ (e = .alloc ∧ 0 ≤ s.len ∧ ¬ roomFor s.cfg (paddedLen s.len.toNat)) := by
  rcases h with ⟨hl, rfl⟩ | ⟨hl, hf, rfl⟩
  · exact .inl ⟨rfl, hl⟩
  · exact .inr ⟨rfl, hl, (fitsBuffer_eq_false _ _).mp hf⟩

/-- A legal command other than `PAD` that raises does so out of sequence, the causes being those of rule R115. -/
theorem raises_seq_cause {s : State} {i : Instr} {e : ErrCode} (hw : i.wellFormed = true) (hi : i ≠ .pad)
    (h : Raises s i e) :
    (i = .rcnext ∧ e = .seq ∧ 24 ≤ s.rnd.toNat) ∨
    ((i = .xorblk ∨ i = .absorb) ∧ e = .seq ∧ (s.pvalid = false ∨ s.nblk ≤ s.blk)) ∨
    (i = .squeeze ∧ e = .seq ∧ (s.pvalid = false ∨ s.blk ≠ s.nblk)) := by
  cases i with
  | pad => exact absurd rfl hi
  | rcnext => exact .inl ⟨rfl, h.2, Nat.not_lt.mp h.1⟩
  | rcld r | round r =>
    obtain ⟨hr, -⟩ := h
    cases hr.symm.trans hw
  | xorblk | absorb =>
    obtain ⟨hb, rfl⟩ := h
    exact .inr (.inl ⟨by simp, rfl, by simpa [blockLeft, imp_iff_not_or] using hb⟩)
  | squeeze =>
    obtain ⟨hb, rfl⟩ := h
    exact .inr (.inr ⟨rfl, rfl, by simpa [allAbsorbed, imp_iff_not_or] using hb⟩)
  | rcseed | theta | rho | pi | chi | iota | keccakf | init | digest => exact h.elim

/-- Settles O9, by the effect of the command: only a raise goes from `ERRF = 0` to `ERRF = 1`. -/
theorem errorCodeCauses : Obligations.ErrorCodeCauses := by
  refine ⟨⟨rfl, rfl, rfl, rfl, rfl⟩, fun i s t hw he hx ht => ?_⟩
  rcases exec_effect hx with ⟨hs, -⟩ | ⟨-, e, hr, rfl⟩ | ⟨rfl, e, hr, rfl⟩ | ⟨-, hc⟩ | hf
  · simp [he] at hs
  · by_cases hi : i = .pad
    · subst hi
      rcases raises_pad_cause hr with h | h
      · exact .inl ⟨.inl rfl, h⟩
      · exact .inr (.inl ⟨.inl rfl, h⟩)
    · exact .inr (.inr (raises_seq_cause hw hi hr))
  · rcases raises_pad_cause hr with h | h
    · exact .inl ⟨.inr rfl, h⟩
    · exact .inr (.inl ⟨.inr rfl, h⟩)
  · obtain ⟨A, l, c, n, b, rfl⟩ := computes_frame hc
    simp [he] at ht
  · rcases writesFlags_flags hf with ⟨-, h⟩ | ⟨-, h⟩ | ⟨-, h⟩ | ⟨-, h⟩ <;> simp [h] at ht

end Sys2Proof.Machine
end

section
/-! PROOFS. `DIGEST` of a message: the state after each absorbed block in closed form, and with it the state in which the
whole `DIGEST` ends, from which what it computes and what it depends on can be read off. -/

namespace Sys2Proof.Machine

/-! ### The blocks of a buffer -/

/-- A part of the bytes that were read. -/
theorem readBytes_slice {m : Memory} {a n : Nat} {bs : List Byte} (h : m.readBytes a n = some bs) {i k : Nat}
    (hk : i + k ≤ n) : m.readBytes (a + i) k = some ((bs.drop i).take k) := by
  obtain ⟨hlen, hread⟩ := readBytes_eq_some.mp h
  refine readBytes_eq_some.mpr ⟨by simp; omega, fun j hj => ?_⟩
  rw [List.getElem?_take, if_pos hj, List.getElem?_drop, ← hread _ (by omega), Nat.add_assoc]

/-- Block `b` of a buffer that holds `P` is block `b` of `P` (rules R99, R104). -/
theorem readBytes_messageBlock {m : Memory} {n b : Nat} {P : List Byte} (h : m.readBytes 0 n = some P)
    (hb : b < n / rateBytes) : m.readBytes (rateBytes * b) rateBytes = some (messageBlock P b) := by
  have hle := (Nat.le_div_iff_mul_le (by decide : 0 < rateBytes)).mp (Nat.succ_le_of_lt hb)
  have hslice : rateBytes * b + rateBytes ≤ n := by rwa [Nat.mul_comm, ← Nat.succ_mul]
  have hread := readBytes_slice h hslice
  rwa [Nat.zero_add] at hread

/-! ### The state after each block -/

/-- The state after the first `b` blocks of `P` are absorbed from zero lanes (rules R101, R104): the generator is
untouched when there is none, and else as the last permutation leaves it. -/
def afterBlocks (P : List Byte) (b : Nat) (s : State) : State :=
  { s with
    lanes := absorbedLanes P b, blk := b,
    lfsr := if b = 0 then s.lfsr else 0x8E,
    rc := if b = 0 then s.rc else 0x8000000080008008,
    rnd := if b = 0 then s.rnd else 24 }

/-- After the `INIT` and `PAD` of a `DIGEST` no block is absorbed yet. -/
theorem afterBlocks_zero (P : List Byte) (s : State) (bs : List Byte) :
    afterBlocks P 0 (padWrites s.initialise bs) = padWrites s.initialise bs := rfl

/-- `ABSORB` goes from the state after `b` blocks to the state after `b + 1`. -/
theorem absorbOp_afterBlocks {P : List Byte} {s : State} (hp : s.pvalid = true)
    (hP : s.pbuf.readBytes 0 s.plen = some P) {b : Nat} (hb : b < s.nblk) :
    absorbOp (afterBlocks P b s) = .next (afterBlocks P (b + 1) s) :=
  absorbOp_of_block (s := afterBlocks P b s) hp hb (readBytes_messageBlock hP hb)

/-- `ABSORB` issued `n` times takes in the next `n` blocks. -/
theorem absorbMany_afterBlocks {P : List Byte} {s : State} (hp : s.pvalid = true)
    (hP : s.pbuf.readBytes 0 s.plen = some P) {n b : Nat} (hn : b + n ≤ s.nblk) :
    absorbMany n (afterBlocks P b s) = .next (afterBlocks P (b + n) s) := by
  induction n generalizing b with
  | zero => rfl
  | succ n ih =>
    rw [absorbMany, absorbOp_afterBlocks hp hP (by omega), andThen_next, ih (by omega), Nat.add_right_comm,
      Nat.add_assoc]

/-! ### The state in which `DIGEST` ends -/

/-- The state after a `DIGEST` of the message `bs`: padded, every block absorbed, and squeezed (rule R103). -/
def digestState (s : State) (bs : List Byte) : State :=
  squeezeWrites (afterBlocks (padMessage bs) (blockCount bs.length) (padWrites s.initialise bs))

theorem readBytes_padWrites (s : State) (bs : List Byte) :
    (padWrites s bs).pbuf.readBytes 0 (padWrites s bs).plen = some (padMessage bs) := by
  rw [padWrites_plen, ← padMessage_length]
  exact readBytes_store _ _ _

/-- `DIGEST` on a valid length that fits, with its message. -/
theorem exec_digest_of_message {s : State} {bs : List Byte} (hl : 0 ≤ s.len)
    (hr : roomFor s.cfg (paddedLen s.len.toNat)) (hbs : s.msg.readBytes 0 s.len.toNat = some bs) :
    exec .digest s = .next (digestState s bs) := by
  have habsorb := absorbMany_afterBlocks (n := (padWrites s.initialise bs).nblk) (b := 0) (padWrites_pvalid _ _)
    (readBytes_padWrites s.initialise bs) (by simp)
  rw [afterBlocks_zero, Nat.zero_add] at habsorb
  exact digestOp_of_absorbed (padOp_of_message (s := s.initialise) hl hr hbs) habsorb

theorem digestState_read_pbuf (s : State) {bs : List Byte} {a : Nat} (h : a < (digestState s bs).plen) :
    (digestState s bs).pbuf.read a = (padMessage bs)[a]? :=
  (padWrites_read s.initialise bs a).trans (if_pos h)

theorem digestState_read_pbuf_beyond (s : State) {bs : List Byte} {a : Nat} (h : (digestState s bs).plen ≤ a) :
    (digestState s bs).pbuf.read a = s.pbuf.read a :=
  (padWrites_read s.initialise bs a).trans (if_neg (Nat.not_lt.mpr h))

theorem digestState_read_dig (s : State) (bs : List Byte) {a : Nat} (h : a < 32) :
    (digestState s bs).dig.read a = (digestOf bs)[a]? :=
  (squeezeWrites_read _ a).trans (if_pos h)

theorem digestState_read_dig_beyond (s : State) (bs : List Byte) {a : Nat} (h : 32 ≤ a) :
    (digestState s bs).dig.read a = s.dig.read a :=
  (squeezeWrites_read _ a).trans (if_neg (Nat.not_lt.mpr h))

theorem digestOf_length (bs : List Byte) : (digestOf bs).length = digestBytes := squeezeBytes_length _

/-- `DIG` holds the digest function of the message (rule R104). -/
theorem digestState_readBytes_dig (s : State) (bs : List Byte) :
    (digestState s bs).dig.readBytes 0 digestBytes = some (digestOf bs) := by
  rw [← digestOf_length bs]
  exact readBytes_store _ _ _

/-- Settles O38, from the state in which `DIGEST` ends. -/
theorem digestComputesFunction : Obligations.DigestComputesFunction := by
  intro s hl hr hm
  obtain ⟨bs, hbs⟩ := Option.isSome_iff_exists.mp ((messageReadable_iff s).mp hm)
  have hlen : bs.length = s.len.toNat := (readBytes_eq_some.mp hbs).1
  refine ⟨digestState s bs, bs, exec_digest_of_message hl hr hbs, hbs, digestState_readBytes_dig s bs,
    digestOf_length bs, rfl, rfl, rfl, rfl, ?_, ?_, readBytes_padWrites s.initialise bs, rfl, rfl, rfl, rfl, rfl,
    fun _ => digestState_read_pbuf_beyond s, fun _ => digestState_read_dig_beyond s bs⟩
  · exact congrArg paddedLen hlen
  · exact congrArg blockCount hlen

/-! ### The empty message -/

theorem roomFor_zero (c : Config) : roomFor c 0 := ⟨fun _ _ => Nat.zero_le _, fun _ _ _ => Nat.two_pow_pos _⟩

/-- The digest of the empty message is squeezed from zero lanes (decision D7; log 15). -/
theorem digestOf_nil : digestOf [] = List.replicate 32 0x00 := by decide

/-- Settles O43: the state in which `DIGEST` ends, with no block. -/
theorem emptyMessageDigest : Obligations.EmptyMessageDigest := by
  intro s hlen
  have hzero : s.len.toNat = 0 := by rw [hlen]; rfl
  have hdigest : exec .digest s = .next (digestState s []) := by
    refine exec_digest_of_message hlen.ge ?_ ?_
    · rw [hzero]
      exact roomFor_zero s.cfg
    · rw [hzero]
      rfl
  refine ⟨_, hdigest, rfl, rfl, rfl, Nat.zero_div _, rfl, zero_lane, fun a ha => ?_⟩
  rw [digestState_read_dig s [] ha, digestOf_nil, List.getElem?_replicate, if_pos ha]

/-! ### What `DIGEST` depends on -/

theorem readBytes_of_sameMessage {s u : State} (h : sameMessage s u) {bs : List Byte}
    (hbs : s.msg.readBytes 0 s.len.toNat = some bs) : u.msg.readBytes 0 u.len.toNat = some bs := by
  obtain ⟨hlen, hmsg⟩ := h
  obtain ⟨hbytes, hread⟩ := readBytes_eq_some.mp hbs
  rw [← hlen]
  refine readBytes_eq_some.mpr ⟨hbytes, fun j hj => ?_⟩
  rw [← hread j hj, Nat.zero_add, hmsg j hj]

/-- Settles O40, by how `DIGEST` ends, alike from both states: with one of its two errors, or with the message, whose
padded bytes and digest are then the bytes of `PBUF` and `DIG` that can be read. -/
theorem digestDependsOnMessageOnly : Obligations.DigestDependsOnMessageOnly := by
  intro s u hcfg hsame hm
  have hlen : s.len = u.len := hsame.1
  obtain ⟨hneg, halloc⟩ := failingDigest s
  obtain ⟨hneg', halloc'⟩ := failingDigest u
  rw [← hlen, ← hcfg] at hneg' halloc'
  rcases Int.lt_or_le s.len 0 with hl | hl
  · exact ⟨_, _, hneg hl, hneg' hl, by simp⟩
  by_cases hr : roomFor s.cfg (paddedLen s.len.toNat)
  · obtain ⟨bs, hbs⟩ := Option.isSome_iff_exists.mp ((messageReadable_iff s).mp hm)
    have hdigest : exec .digest u = .next (digestState u bs) :=
      exec_digest_of_message (hlen ▸ hl) (hlen ▸ hcfg ▸ hr) (readBytes_of_sameMessage hsame hbs)
    refine ⟨_, _, exec_digest_of_message hl hr hbs, hdigest, rfl, rfl, rfl, rfl, rfl, rfl, rfl, rfl, rfl, rfl,
      fun _ a ha => ?_, fun _ a ha => ?_⟩
    · rw [digestState_read_dig s bs ha, digestState_read_dig u bs ha]
    · rw [digestState_read_pbuf s ha, digestState_read_pbuf u ha]
  · exact ⟨_, _, halloc hl hr, halloc' hl hr, by simp⟩

end Sys2Proof.Machine
end

section
/-! PROOFS. The error state: what holds it, what leaves it, what a raise writes, and which commands raise which code. -/

namespace Sys2Proof.Machine

/-! ### The hold -/

/-- Settles O7, by the hold of a command and that of an illegal word. -/
theorem errorStateHolds : Obligations.ErrorStateHolds := by
  refine ⟨fun _ _ => exec_held, fun s rest w he hs hw => ?_⟩
  obtain ⟨-, hheld⟩ := illegalWordRaisesErrCmd s rest w hs hw
  exact hheld he

/-! ### What a raise writes -/

/-- A command that sets `ERRF` has raised, or a `DIGEST` has by the `PAD` after its `INIT` (rule R112). -/
theorem exec_raised {i : Instr} {s t : State} (h : exec i s = .next t) (ht : t.errf = true) :
    (s.errf = true ∧ i ≠ .digest ∧ t = s) ∨
    (s.errf = false ∧ ∃ e, Raises s i e ∧ t = s.raise e) ∨
    (i = .digest ∧ ∃ e, Raises s.initialise .pad e ∧ t = s.initialise.raise e) := by
  rcases exec_effect h with ⟨he, -, hd, rfl⟩ | hr | hr | ⟨he, hc⟩ | hw
  · exact .inl ⟨he, hd, rfl⟩
  · exact .inr (.inl hr)
  · exact .inr (.inr hr)
  · obtain ⟨A, l, c, n, b, rfl⟩ := computes_frame hc
    simp [he] at ht
  · rcases writesFlags_flags hw with ⟨-, h⟩ | ⟨-, h⟩ | ⟨-, h⟩ | ⟨-, h⟩ <;> simp [h] at ht

/-- Settles O8: a raise writes the four fields, in a `DIGEST` those of the state that its `INIT` leaves. -/
theorem errorsArePrecise : Obligations.ErrorsArePrecise := by
  refine ⟨fun i s t hi he hx ht => ?_, fun s t hx ht => ?_, fun s rest w hs hw he => ?_⟩
  · rcases exec_raised hx ht with ⟨hs, -⟩ | ⟨-, e, hr, rfl⟩ | ⟨hd, -⟩
    · simp [he] at hs
    · exact ⟨e, raises_code_ne_none hr, rfl⟩
    · exact absurd hd hi
  · rcases exec_raised hx ht with ⟨-, hd, -⟩ | ⟨-, e, hr, -⟩ | ⟨-, e, hr, rfl⟩
    · exact absurd rfl hd
    · exact hr.elim
    · exact ⟨e, raises_code_ne_none hr, zero_lane, rfl⟩
  · obtain ⟨hraise, -⟩ := illegalWordRaisesErrCmd s rest w hs hw
    exact hraise he

/-! ### Leaving the error state -/

/-- A command that clears `ERRF` is `INIT` or `DIGEST` (rules R24, R118). -/
theorem exec_leaves_error {i : Instr} {s t : State} (h : exec i s = .next t) (he : s.errf = true) (ht : t.errf = false) :
    i = .init ∨ i = .digest := by
  obtain ⟨-, -, -, -, hclear, -⟩ := flagChanges i s t h
  exact hclear he ht

/-- An action of the host that clears `ERRF` is a reset or the word of `INIT` or `DIGEST` (rule R118). -/
theorem hostAct_leaves_error {a : HostAction} {s t : State} (h : hostAct a s = .next t) (he : s.errf = true)
    (ht : t.errf = false) :
    a = .reset ∨ ∃ w, a = .command w ∧ (decode w = .command .init ∨ decode w = .command .digest) := by
  have hcleared : t.errf ≠ s.errf := by simp [he, ht]
  cases a with
  | reset => exact .inl rfl
  | command w =>
    rcases presentWord_eq_next h with ⟨i, hd, hi⟩ | rfl | rfl
    · rcases exec_leaves_error hi he ht with rfl | rfl
      · exact .inr ⟨w, rfl, .inl hd⟩
      · exact .inr ⟨w, rfl, .inr hd⟩
    · exact absurd rfl hcleared
    · cases ht
  | writeLen v => cases h; exact absurd rfl hcleared
  | writeMsg offset bytes => cases h; exact absurd rfl hcleared
  | readReg n => obtain ⟨v, rfl⟩ := hostReadReg_eq_next h; exact absurd rfl hcleared
  | readDig o => obtain ⟨b, rfl⟩ := hostReadDig_eq_next h; exact absurd rfl hcleared

/-- Settles O10, by the host's next action. -/
theorem leavingTheErrorState : Obligations.LeavingTheErrorState := by
  refine ⟨fun s t he hx ht => ?_, fun s => ⟨s.initialise, rfl, rfl, rfl⟩,
    fun s rest hs => ⟨(s.withHost rest).afterReset, step_of_action hs, rfl, rfl⟩⟩
  cases hs : s.host with
  | nil =>
    rw [step_of_no_action hs] at hx
    cases hx
    simp [he] at ht
  | cons a rest =>
    rw [step_of_action hs] at hx
    rcases hostAct_leaves_error hx he ht with rfl | ⟨w, rfl, hd⟩
    · exact .inl ⟨rest, rfl⟩
    · exact .inr ⟨w, rest, rfl, hd⟩

/-! ### The code in `ERR` -/

/-- A command that writes a flag without raising leaves `ERR` or clears it. -/
theorem writesFlags_err {s t : State} {i : Instr} (h : WritesFlags s i t) : t.err = s.err ∨ t.err = .none := by
  cases i with
  | init => obtain rfl := h; exact .inr rfl
  | pad => obtain ⟨-, -, -, bs, -, rfl⟩ := h; exact .inl rfl
  | squeeze => obtain ⟨-, -, rfl⟩ := h; exact .inl rfl
  | digest => obtain ⟨-, -, bs, u, -, -, hu, rfl⟩ := h; rw [hu]; exact .inr rfl
  | _ => exact h.elim

/-- Where the code in `ERR` after a command comes from: it was there, or the command raised it. -/
theorem exec_err {i : Instr} {s t : State} (h : exec i s = .next t) (ht : t.err ≠ .none) :
    t.err = s.err ∨ Raises s i t.err ∨ (i = .digest ∧ Raises s.initialise .pad t.err) := by
  rcases exec_effect h with ⟨-, -, -, rfl⟩ | ⟨-, e, hr, rfl⟩ | ⟨hd, e, hr, rfl⟩ | ⟨-, hc⟩ | hw
  · exact .inl rfl
  · exact .inr (.inl hr)
  · exact .inr (.inr ⟨hd, hr⟩)
  · obtain ⟨A, l, c, n, b, rfl⟩ := computes_frame hc
    exact .inl rfl
  · exact .inl ((writesFlags_err hw).resolve_right ht)

/-- `PAD` never raises `ERR_SEQ`: it has no sequencing precondition (rule R115). -/
theorem not_raises_pad_seq {s : State} : ¬ Raises s .pad .seq := by
  simp [Raises]

/-! ### The sequencing preconditions -/

theorem exec_rcnext_of_spent {s : State} (he : s.errf = false) (hr : ¬ s.rnd.toNat < numRounds) :
    exec .rcnext s = .next (s.raise .seq) :=
  (unlessError_running he).trans (if_neg hr)

theorem exec_xorblk_of_no_block {s : State} (he : s.errf = false) (hb : blockLeft s = false) :
    exec .xorblk s = .next (s.raise .seq) :=
  (unlessError_running he).trans (xorblkOp_eq_next.mpr (.inl ⟨hb, rfl⟩))

theorem exec_absorb_of_no_block {s : State} (he : s.errf = false) (hb : blockLeft s = false) :
    exec .absorb s = .next (s.raise .seq) :=
  (unlessError_running he).trans (absorbOp_eq_next.mpr (.inl ⟨hb, rfl⟩))

theorem exec_squeeze_of_unabsorbed {s : State} (he : s.errf = false) (hb : allAbsorbed s = false) :
    exec .squeeze s = .next (s.raise .seq) :=
  (unlessError_running he).trans (squeezeOp_eq_next.mpr (.inl ⟨hb, rfl⟩))

/-- Settles O36: each check as it fails, and the raise that a new `ERR_SEQ` comes from. -/
theorem sequencingErrors : Obligations.SequencingErrors := by
  refine ⟨fun s he => ⟨exec_rcnext_of_spent he, fun hb => ?_, fun hb => ?_⟩, fun i s t hw _ hx ht => ?_⟩
  · have hleft : blockLeft s = false := Bool.eq_false_iff.mpr (mt blockLeft_iff.mp hb)
    exact ⟨exec_xorblk_of_no_block he hleft, exec_absorb_of_no_block he hleft⟩
  · exact exec_squeeze_of_unabsorbed he (Bool.eq_false_iff.mpr (mt allAbsorbed_iff.mp hb))
  · have hcode := exec_err hx (by simp [ht])
    rw [ht] at hcode
    rcases hcode with h | h | ⟨-, h⟩
    · exact .inl h.symm
    · have hi : i ≠ .pad := fun hi => not_raises_pad_seq (hi ▸ h)
      rcases raises_seq_cause hw hi h with ⟨h, -⟩ | ⟨h | h, -⟩ | ⟨h, -⟩ <;> simp [h]
    · exact absurd h not_raises_pad_seq

/-! ### `ERR_ALLOC` -/

/-- `ERR_ALLOC` is raised for a padded length without room only (rules R94, R113). -/
theorem raises_alloc_no_room {s : State} {i : Instr} (h : Raises s i .alloc) :
    fitsBuffer s.cfg (paddedLen s.len.toNat) = false := by
  cases i with
  | pad =>
    rcases h with ⟨-, h⟩ | ⟨-, hf, -⟩
    · cases h
    · exact hf
  | rcnext | rcld | round | xorblk | absorb | squeeze => cases h.2
  | rcseed | theta | rho | pi | chi | iota | keccakf | init | digest => exact h.elim

/-- Where every padded length has room, no command newly leaves `ERR_ALLOC`. -/
theorem exec_err_ne_alloc {i : Instr} {s t : State} (hroom : ∀ p, fitsBuffer s.cfg p = true) (he : s.err ≠ .alloc)
    (h : exec i s = .next t) : t.err ≠ .alloc := by
  intro ht
  have hcode := exec_err h (by simp [ht])
  rw [ht] at hcode
  rcases hcode with h | h | ⟨-, h⟩
  · exact he h.symm
  · simpa [hroom] using raises_alloc_no_room h
  · simpa [hroom] using raises_alloc_no_room h

/-- Where every padded length has room, no action of the host newly leaves `ERR_ALLOC`; none writes the parameters. -/
theorem hostAct_err_ne_alloc {a : HostAction} {s t : State} (hroom : ∀ p, fitsBuffer s.cfg p = true)
    (he : s.err ≠ .alloc) (h : hostAct a s = .next t) : t.err ≠ .alloc ∧ t.cfg = s.cfg := by
  cases a with
  | command w =>
    rcases presentWord_eq_next h with ⟨i, -, hi⟩ | rfl | rfl
    · obtain ⟨-, -, hcfg, -⟩ := commandsLeaveHostAlone i s t hi
      exact ⟨exec_err_ne_alloc hroom he hi, hcfg⟩
    · exact ⟨he, rfl⟩
    · exact ⟨by simp, rfl⟩
  | writeLen v => cases h; exact ⟨he, rfl⟩
  | writeMsg offset bytes => cases h; exact ⟨he, rfl⟩
  | readReg n => obtain ⟨v, rfl⟩ := hostReadReg_eq_next h; exact ⟨he, rfl⟩
  | readDig o => obtain ⟨b, rfl⟩ := hostReadDig_eq_next h; exact ⟨he, rfl⟩
  | reset => cases h; exact ⟨nofun, rfl⟩

/-- Settles O56, by the host's next action: with these parameters every padded length has room. -/
theorem unboundedBufferNeverFails : Obligations.UnboundedBufferNeverFails := by
  intro s t hcap hlimit he hx
  cases hs : s.host with
  | nil =>
    rw [step_of_no_action hs] at hx
    cases hx
    exact ⟨he, rfl⟩
  | cons a rest =>
    rw [step_of_action hs] at hx
    exact hostAct_err_ne_alloc (s := s.withHost rest) (fitsBuffer_unbounded hcap hlimit) he hx

end Sys2Proof.Machine
end
